-- ==== Sys2Proof/Word.lean ====
section
/-! DEFINITION. The words the block handles (30_encoding.md R45 to R47) and the two pieces of data made of
them: a wiring table and a rotor. -/

namespace Sys2Proof

/-- A symbol, which is the same thing as its index: one of the 26 letters, `A = 0` to `Z = 25`
(10_state.md R10). The type holds exactly the legal values (20_memory.md R35, U16). -/
abbrev Sym := Fin 26

/-- The 5-bit word that carries a symbol, format S (30_encoding.md R46); its values 26 to 31 are no symbols. -/
abbrev SymW := BitVec 5

/-- A character word, format C (30_encoding.md R47). -/
abbrev CharW := BitVec 8

/-- A wiring table: 26 entries, each a symbol (10_state.md R13 and R14). -/
abbrev Table := Vector Sym 26

/-- Rotor `k` is the pair of its table `W[k]` and its position register `POS[k]` (10_state.md R12, R13). -/
structure Rotor where
  wiring : Table
  pos : Sym
  deriving DecidableEq, Repr

/-- A wiring string: character words with their count, of any length (30_encoding.md R50). -/
abbrev WiringString := List CharW

end Sys2Proof
end

