-- ==== Sys2Proof/Syntax.lean ====
section
/-! DEFINITION. The operations of the block, one constructor per row of spec/opcode_table.json
(30_encoding.md R55), their operands, the raw words they are decoded from, and the pseudo-operations (R59). -/

namespace Sys2Proof

/-- One element of a configuration record's rotor list: wiring string `w_k` and initial position `p_k`, an
integer (30_encoding.md R50, R52). -/
structure RotorCfg where
  wiring : WiringString
  pos : Int
  deriving DecidableEq, Repr

/-- Configuration record, format K: element `k` of `rotors` is rotor `k` (30_encoding.md R50). -/
structure Record where
  rotors : List RotorCfg
  refl : WiringString
  deriving DecidableEq, Repr

/-- The operations, one per row of the operation map (30_encoding.md R55). -/
inductive Instr where
  /-- `CONFIG rec` (43_construction.md R105). -/
  | config (rec : Record)
  /-- `CHAR c` (42_signal_path.md R88). -/
  | char (c : CharW)
  /-- `ENC i`, from a capital letter (42_signal_path.md R86). -/
  | enc (i : Sym)
  /-- `ENC.L i`, from a small letter (42_signal_path.md R86). -/
  | encL (i : Sym)
  /-- `PASS c` (42_signal_path.md R87). -/
  | pass (c : CharW)
  /-- `STEPALL` (40_rotor.md R68). -/
  | stepAll
  /-- `STEP k` (40_rotor.md R67). -/
  | step (k : Nat)
  /-- `FWD k, i` (40_rotor.md R69). -/
  | fwd (k : Nat) (i : Sym)
  /-- `REFL s` (41_reflector.md R80). -/
  | refl (s : Sym)
  /-- `BWD k, s` (40_rotor.md R70). -/
  | bwd (k : Nat) (s : Sym)
  /-- `BYPASS c` (30_encoding.md R54, 42_signal_path.md R87). -/
  | bypass (c : CharW)
  deriving DecidableEq, Repr

/-- The words an operation is decoded from, one constructor per format of the operation map (30_encoding.md R55).
How they are carried on wires is the open parameter `PORT_MAP`; that operands travel beside the code is a DESIGN
CHOICE (log 9). -/
inductive Raw where
  /-- A host transaction, format T: `cmd` selects which operand is read, the character `c` (format C) or the
  record `rec` (format K) (30_encoding.md R53). -/
  | transaction (cmd : BitVec 1) (c : CharW) (rec : Record)
  /-- A character word at the decoder, format C (30_encoding.md R47). -/
  | character (c : CharW)
  /-- A control word of the signal-path multiplexer, format M, with the rotor number, the symbol word and the
  character word it selects among (30_encoding.md R54). -/
  | stage (sel : BitVec 2) (k : Nat) (s : SymW) (c : CharW)
  /-- A request to the stepping unit, which has no code of its own: one rotor, or all of them
  (40_rotor.md R67, R68). -/
  | stepping (k : Option Nat)
  deriving DecidableEq, Repr

/-- The pseudo-operations (30_encoding.md R59). `reset` and `setPos` carry the record the host has kept. -/
inductive Pseudo where
  | process (m : List CharW)
  | encrypt (m : List CharW)
  | decrypt (m : List CharW)
  | reset (rec : Record)
  | setPos (rec : Record) (ps : List Int)
  deriving DecidableEq, Repr

end Sys2Proof
end

