-- ==== Sys2Proof/Decode.lean ====
section
/-! DEFINITION. Decoding and encoding (30_encoding.md): characters, symbol words, the words of every operation,
the pseudo-operations' expansions, and the reading of a word numbered as spec/opcode_table.json numbers it. -/

namespace Sys2Proof

/-- What a character word is (30_encoding.md R48): a capital letter, a small letter, each with its symbol, or no
letter. -/
inductive CharClass where
  | capital (i : Sym)
  | small (i : Sym)
  | notLetter
  deriving DecidableEq, Repr

/-- Field `cls` of a character word, bits 7:5 (30_encoding.md R47). -/
def clsOf (c : CharW) : BitVec 3 := c.extractLsb' 5 3

/-- Field `ord` of a character word, bits 4:0 (30_encoding.md R47). -/
def ordOf (c : CharW) : BitVec 5 := c.extractLsb' 0 5

/-- Classification of a character word (30_encoding.md R48). -/
def classify (c : CharW) : CharClass :=
  if h : 0x41 ≤ c.toNat ∧ c.toNat ≤ 0x5A then .capital ⟨c.toNat - 0x41, by omega⟩
  else if h : 0x61 ≤ c.toNat ∧ c.toNat ≤ 0x7A then .small ⟨c.toNat - 0x61, by omega⟩
  else .notLetter

/-- The symbol a class carries; `none` is `NotLetter` (30_encoding.md R48). -/
def CharClass.sym : CharClass → Option Sym
  | .capital i => some i
  | .small i => some i
  | .notLetter => none

/-- `sym_of_char(c)`: `some i` is `Letter(i)`, `none` is `NotLetter` (30_encoding.md R48). -/
def symOfChar (c : CharW) : Option Sym := (classify c).sym

/-- `char_of_sym(i) = 0x41 + i`, the capital letter number `i` (30_encoding.md R49). -/
def charOfSym (i : Sym) : CharW := BitVec.ofNat 8 (0x41 + i.val)

/-- The small letter number `i` (30_encoding.md R47). -/
def smallOfSym (i : Sym) : CharW := BitVec.ofNat 8 (0x61 + i.val)

/-- The 5-bit word of a symbol (30_encoding.md R46). -/
def wordOfSym (i : Sym) : SymW := BitVec.ofNat 5 i.val

/-- The symbol of a 5-bit word; 26 to 31 are no symbols (30_encoding.md R46). -/
def symOfWord (w : SymW) : Option Sym :=
  if h : w.toNat < 26 then some ⟨w.toNat, h⟩ else none

/-- The one thing decoding can refuse: a symbol word 26 to 31 (30_encoding.md R46, R56). -/
inductive DecodeError where
  | notASymbol (w : SymW)
  deriving DecidableEq, Repr

/-- Decode of a character word, total and from no state (30_encoding.md R55, R57). -/
def decodeChar (c : CharW) : Instr :=
  match classify c with
  | .capital i => .enc i
  | .small i => .encL i
  | .notLetter => .pass c

/-- The operation of a path selection on a symbol (30_encoding.md R54); `0b11` is not one of them. -/
def decodeSelect (sel : BitVec 2) (k : Nat) (i : Sym) : Instr :=
  if sel = 0b00#2 then .fwd k i else if sel = 0b01#2 then .refl i else .bwd k i

/-- Decode of a multiplexer control word (30_encoding.md R54): `k` counts for FWD and BWD only, the symbol word
for the three path selections only, the character for BYPASS only. -/
def decodeStage (sel : BitVec 2) (k : Nat) (s : SymW) (c : CharW) : Except DecodeError Instr :=
  if sel = 0b11#2 then .ok (.bypass c)
  else
    match symOfWord s with
    | some i => .ok (decodeSelect sel k i)
    | none => .error (.notASymbol s)

/-- Decode of any raw words (30_encoding.md R53 to R55). -/
def decode : Raw → Except DecodeError Instr
  | .transaction cmd c rec => .ok (if cmd = 1#1 then .config rec else .char c)
  | .character c => .ok (decodeChar c)
  | .stage sel k s c => decodeStage sel k s c
  | .stepping none => .ok .stepAll
  | .stepping (some k) => .ok (.step k)

/-- The operand words an operation does not read are laid out as zeros and the empty record. -/
def emptyRecord : Record := ⟨[], []⟩

/-- The words of an operation (30_encoding.md R53 to R55). -/
def encode : Instr → Raw
  | .config rec => .transaction 1#1 0#8 rec
  | .char c => .transaction 0#1 c emptyRecord
  | .enc i => .character (charOfSym i)
  | .encL i => .character (smallOfSym i)
  | .pass c => .character c
  | .stepAll => .stepping none
  | .step k => .stepping (some k)
  | .fwd k i => .stage 0b00#2 k (wordOfSym i) 0#8
  | .refl s => .stage 0b01#2 0 (wordOfSym s) 0#8
  | .bwd k s => .stage 0b10#2 k (wordOfSym s) 0#8
  | .bypass c => .stage 0b11#2 0 0#5 c

/-- The record of `SETPOS p0, ..., p(N-1)` (30_encoding.md R59(d)): the kept wiring strings with new positions, one for
each rotor. DESIGN CHOICE (log 23): R59 says nothing of another number of positions than of rotors; the model pairs
them in order as far as both go, so surplus positions are ignored and rotors without a position are left out. -/
def Record.withPositions (rec : Record) (ps : List Int) : Record :=
  { rec with rotors := List.zipWith (fun r p => { r with pos := p }) rec.rotors ps }

/-- The expansion of a pseudo-operation (30_encoding.md R59). -/
def Pseudo.expand : Pseudo → List Instr
  | .process m => m.map .char
  | .encrypt m => m.map .char
  | .decrypt m => m.map .char
  | .reset rec => [.config rec]
  | .setPos rec ps => [.config (rec.withPositions ps)]

/-- A row of the opcode table read as one number: width in bits, mask and value (spec/opcode_table.json). -/
structure Pattern where
  width : Nat
  mask : Nat
  value : Nat
  deriving DecidableEq, Repr

/-- Each operation's row of spec/opcode_table.json: its `width`, `mask` and `match`. -/
def Instr.pattern : Instr → Pattern
  | .config _ => ⟨1, 0x1, 0x1⟩
  | .char _ => ⟨9, 0x100, 0x000⟩
  | .enc _ => ⟨8, 0xE0, 0x40⟩
  | .encL _ => ⟨8, 0xE0, 0x60⟩
  | .pass _ => ⟨8, 0x00, 0x00⟩
  | .stepAll => ⟨0, 0x0, 0x0⟩
  | .step _ => ⟨0, 0x0, 0x0⟩
  | .fwd _ _ => ⟨2, 0x3, 0x0⟩
  | .refl _ => ⟨2, 0x3, 0x1⟩
  | .bwd _ _ => ⟨2, 0x3, 0x2⟩
  | .bypass _ => ⟨2, 0x3, 0x3⟩

/-- The bits the opcode table gives raw words, as one number with bit 0 the least significant: CONFIG is its
command bit alone, CHAR the 9 bits `cmd, c`, a stage its select. -/
def Raw.tableBits : Raw → Nat
  | .transaction cmd c _ => if cmd = 1#1 then 1 else c.toNat
  | .character c => c.toNat
  | .stage sel _ _ _ => sel.toNat
  | .stepping _ => 0

/-- The raw words of a table word `w` of `nbits` bits. The table's rows are of several formats, and the count of
bits tells which: none STEPALL, 1 format T, 2 format M, 8 format C, 9 or more formats T and C together. A count
rounded up to a byte no longer tells format C from the 1- and 2-bit formats: by DESIGN CHOICE (log 10) a byte
word 0, 2 or 3 is read as the select of format M and a byte word 1 as the command of format T. -/
def tableRaw (nbits w : Nat) : Raw :=
  if nbits = 0 then .stepping none
  else if nbits = 1 then .transaction (BitVec.ofNat 1 w) 0#8 emptyRecord
  else if nbits = 2 then .stage (BitVec.ofNat 2 w) 0 0#5 0#8
  else if nbits ≤ 8 then
    if w = 1 then .transaction 1#1 0#8 emptyRecord
    else if w ≤ 3 then .stage (BitVec.ofNat 2 w) 0 0#5 0#8
    else .character (BitVec.ofNat 8 w)
  else .transaction (BitVec.ofNat 1 (w >>> 8)) (BitVec.ofNat 8 w) emptyRecord

/-- The instruction the decoder reads from a table word (see `tableRaw`). -/
def decodeTableWord (nbits w : Nat) : Option Instr :=
  match decode (tableRaw nbits w) with
  | .ok i => some i
  | .error _ => none

end Sys2Proof
end

