-- ==== Sys2Proof/Config.lean ====
section
/-! DEFINITION. What the spec leaves open (00_scope.md R5, 93_implementation_defined.md): the free values, which
have no body, and the capacity a freshly powered instance is given. -/

namespace Sys2Proof

/-- The contents of `N`, `W` and `POS` where the spec calls them unspecified (10_state.md R25, U8): the `d`-th
draw, a list of any length with any tables and positions. No proof can see what it is. -/
opaque Config.freeRotors : Nat → List Rotor

/-- The contents of `U` where the spec calls them unspecified (10_state.md R25, U8): the `d`-th draw. -/
opaque Config.freeRefl : Nat → Table

/-- DESIGN CHOICE (log 3): the capacity `N_MAX` of the one instance the host's `State.reset` and `core`, which take no
argument, describe: unbounded, one of the values D5 allows. `State.resetFor` and `coreFor` take the capacity as an
argument. -/
def Config.nMaxAtReset : Option Nat := none

end Sys2Proof
end

