-- ==== Sys2Proof/Machine/State.lean ====
section
/-! DEFINITION. The state of the block as plain data, the reasons a step can stop, and the state after reset
(10_state.md, 60_exceptions.md, 70_reset_and_hazards.md R140). -/

namespace Sys2Proof.Machine

/-- `MODE`, one bit: `unconfigured` is 0, `ready` is 1 (10_state.md R16). -/
inductive Mode where
  | unconfigured
  | ready
  deriving DecidableEq, Repr

/-- `ERR`, the 2-bit code of the last CONFIG's outcome (10_state.md R17); `Err.code` gives the number. -/
inductive Err where
  | none
  | invalidWiring
  | invalidReflector
  | invalidPosition
  deriving DecidableEq, Repr

/-- The string an InvalidWiring error names (60_exceptions.md R120). -/
inductive WiringRef where
  | rotor (k : Nat)
  | reflector
  deriving DecidableEq, Repr

/-- The three construction errors, each with its `info` (60_exceptions.md R120). -/
inductive ConfigError where
  | invalidWiring (w : WiringRef)
  | invalidReflector (a : Sym)
  | invalidPosition (k : Nat)
  deriving DecidableEq, Repr

/-- The outcome a CONFIG returns to the host (43_construction.md R105, 60_exceptions.md R126(d)). -/
inductive Report where
  | success
  | failed (e : ConfigError)
  deriving DecidableEq, Repr

/-- What a decode or stage operation returns to the operation that invoked it: a symbol or a character. -/
inductive Ret where
  | sym (s : Sym)
  | chr (c : CharW)
  deriving DecidableEq, Repr

/-- What the host presents next: the reset event (70_reset_and_hazards.md R140), or the raw words of an operation.
The host presents transactions only (30_encoding.md R45); see `Raw`. -/
inductive Event where
  | reset
  | op (raw : Raw)
  deriving DecidableEq, Repr

/-- The state tuple `(MODE, ERR, N, W, U, POS)` of 10_state.md R11, the two character streams of 20_memory.md R30,
the CONFIG outcomes of 70_reset_and_hazards.md R151, the capacity of the instance, and two fields of the model's
own (`ret`, `draws`). -/
structure State where
  /-- `MODE` (10_state.md R16). -/
  mode : Mode
  /-- `ERR` (10_state.md R17). -/
  err : Err
  /-- Element `k` holds `W[k]` and `POS[k]`; the length is `N` (10_state.md R12, R13, R15). -/
  rotors : List Rotor
  /-- `U` (10_state.md R14). -/
  refl : Table
  /-- `N_MAX`, constant for an instance; `none` is unbounded (00_scope.md R5, D5). -/
  nMax : Option Nat
  /-- What the host has presented and the block has not yet taken, first to be taken first (20_memory.md R30(b)). -/
  inbox : List Event
  /-- The output stream, first emitted first (20_memory.md R30(c)). -/
  outbox : List CharW
  /-- The outcomes of the CONFIGs so far, first to last (70_reset_and_hazards.md R151). -/
  reports : List Report
  /-- The model's own (log 5): what the last executed operation returned to its invoker. -/
  ret : Option Ret
  /-- The model's own (log 2): how many times the unspecified contents have been drawn. -/
  draws : Nat
  deriving DecidableEq, Repr

/-- The block has no fault: no operation stops the machine with an error (60_exceptions.md R124, R134). CONFIG's
three errors are ordinary outcomes. -/
inductive Fault
  deriving DecidableEq, Repr

/-- The reasons an operation has no meaning. All are safe: the model stops where hardware may do anything. -/
inductive Refusal where
  /-- An operation the model has not reached; raised by no arm of `exec` today. Safe. -/
  | notModelled (mnemonic : String)
  /-- Raised by every operation but CONFIG while MODE is UNCONFIGURED (60_exceptions.md R129). Safe. -/
  | unconfigured
  /-- Raised by CONFIG on a record of more than `N_MAX` rotors, which no host can present
  (43_construction.md R114, U13). Safe. -/
  | recordTooLong
  /-- Raised by STEP, FWD and BWD for a rotor number `k` that is not below `N` (40_rotor.md R67, R69, R70). Safe. -/
  | noSuchRotor (k : Nat)
  /-- Raised by BWD, ENC, ENC.L and CHAR where an inverse lookup meets a table that does not hold the symbol exactly
  once (20_memory.md R32, U15); no state that meets `State.Inv` raises it. Safe. -/
  | tableNotPermutation
  /-- Raised by PASS of a letter, which no decode yields (42_signal_path.md R87). Safe. -/
  | passOfLetter
  /-- Raised by `step` for a symbol word 26 to 31, which cannot be presented (30_encoding.md R46, U16). Safe. -/
  | notASymbol (w : SymW)
  deriving DecidableEq, Repr

/-- `N`, the number of rotors (10_state.md R15). -/
def State.n (s : State) : Nat := s.rotors.length

/-- `POS[k]`, the read port an integration may give the host (10_state.md R23, `POS_READABLE`). -/
def State.pos (s : State) (k : Nat) : Option Sym := (s.rotors[k]?).map Rotor.pos

/-- The state of an instance of capacity `N_MAX = nMax` (00_scope.md R5: the model takes it as an argument) after the
power-on reset event (70_reset_and_hazards.md R140, 10_state.md R25): MODE and ERR as the spec states them, `N`, `W`,
`U` and `POS` free values, nothing presented, nothing emitted. -/
def State.resetFor (nMax : Option Nat) : State where
  mode := .unconfigured
  err := .none
  rotors := Config.freeRotors 0
  refl := Config.freeRefl 0
  nMax := nMax
  inbox := []
  outbox := []
  reports := []
  ret := none
  draws := 1

/-- The state after reset of the instance the host runs, whose capacity is `Config.nMaxAtReset` (log 3). -/
def State.reset : State := State.resetFor Config.nMaxAtReset

end Sys2Proof.Machine
end

