-- ==== Sys2Proof/Machine/Flags.lean ====
section
/-! DEFINITION. The status bits MODE and ERR (10_state.md R16, R17). The block has no condition codes
(10_state.md R22); only CONFIG and the reset event write these two. -/

namespace Sys2Proof.Machine

/-- The bit of `MODE` (10_state.md R16). -/
def Mode.bit : Mode → BitVec 1
  | .unconfigured => 0#1
  | .ready => 1#1

/-- The code in `ERR` (10_state.md R17, 60_exceptions.md R120). -/
def Err.code : Err → BitVec 2
  | .none => 0#2
  | .invalidWiring => 1#2
  | .invalidReflector => 2#2
  | .invalidPosition => 3#2

/-- The value `ERR` takes for an error (60_exceptions.md R120). -/
def ConfigError.err : ConfigError → Err
  | .invalidWiring _ => .invalidWiring
  | .invalidReflector _ => .invalidReflector
  | .invalidPosition _ => .invalidPosition

/-- Write the two status fields. -/
def State.setStatus (s : State) (m : Mode) (e : Err) : State := { s with mode := m, err := e }

end Sys2Proof.Machine
end

