-- ==== Sys2Proof/Machine/Ops.lean ====
section
/-! DEFINITION. The named operations the meanings are built from: modular arithmetic, table access, one rotor, the
whole path of a letter, the writes of State, raising an error, the reset event, and taking the next event. -/

namespace Sys2Proof.Machine

/-- `mod26(v)`, the residue in `0..25` of an integer of either sign (00_scope.md R7, 40_rotor.md R65). -/
def mod26 (v : Int) : Sym := ⟨(v % 26).toNat, by omega⟩

/-- The 26 symbols in order. -/
def allSyms : List Sym := List.finRange 26

/-- `TabRead(T, a)` (20_memory.md R31). -/
def tabRead (T : Table) (a : Sym) : Sym := T.get a

/-- `TabFind(T, s)`: the index whose entry is `s`, if there is exactly one (20_memory.md R32); on a table where there
is none or several it has no result, never the first match (U15). -/
def tabFind (T : Table) (s : Sym) : Option Sym :=
  match allSyms.filter (fun j => tabRead T j = s) with
  | [j] => some j
  | _ => none

/-- STEP of one rotor: the position advances by one modulo 26 (40_rotor.md R67). -/
def Rotor.step (r : Rotor) : Rotor := { r with pos := mod26 (r.pos.val + 1) }

/-- FWD of one rotor: shift the index forward by the position, then look up (40_rotor.md R69, R71). -/
def Rotor.fwd (r : Rotor) (i : Sym) : Sym := tabRead r.wiring (mod26 (i.val + r.pos.val))

/-- BWD of one rotor: find the index, then shift back, never negative (40_rotor.md R70). -/
def Rotor.bwd (r : Rotor) (s : Sym) : Option Sym :=
  (tabFind r.wiring s).map fun j => mod26 ((j.val : Int) - r.pos.val)

/-- The forward pass: the last rotor first, rotor 0 last (42_signal_path.md R86 step 2). -/
def forwardPass (rs : List Rotor) (x : Sym) : Sym := rs.foldr Rotor.fwd x

/-- The backward pass: rotor 0 first, the last rotor last (42_signal_path.md R86 step 4). -/
def backwardPass : List Rotor → Sym → Option Sym
  | [], x => some x
  | r :: rs, x =>
    match Rotor.bwd r x with
    | some y => backwardPass rs y
    | none => none

/-- The substitution of one letter at fixed positions: forward pass, reflector, backward pass
(42_signal_path.md R86 steps 2 to 5, R92). -/
def signalPath (rs : List Rotor) (U : Table) (i : Sym) : Option Sym :=
  backwardPass rs (tabRead U (forwardPass rs i))

/-- STEPALL: every rotor, whatever its neighbours do (40_rotor.md R68, R72). It returns nothing. -/
def State.stepAll (s : State) : State := { s with rotors := s.rotors.map Rotor.step, ret := none }

/-- STEP of rotor `k`, leaving every other rotor (40_rotor.md R67). It returns nothing. -/
def State.stepRotor (s : State) (k : Nat) (r : Rotor) : State :=
  { s with rotors := s.rotors.set k (Rotor.step r), ret := none }

/-- Return a value to the invoking operation. -/
def State.returns (s : State) (v : Ret) : State := { s with ret := some v }

/-- `emit c`: append a character to the output stream (00_scope.md R8). The values local to the transaction end with
it (10_state.md R20). -/
def State.emit (s : State) (c : CharW) : State := { s with outbox := s.outbox ++ [c], ret := none }

/-- `N`, `W`, `U` and `POS` become unspecified (10_state.md R25): the next draw of the free values. -/
def State.unspecify (s : State) : State :=
  { s with
    rotors := Config.freeRotors s.draws
    refl := Config.freeRefl s.draws
    draws := s.draws + 1 }

/-- The commit of a CONFIG that passed its checks, all of it at once (43_construction.md R110). -/
def State.commit (s : State) (rs : List Rotor) (U : Table) : State :=
  { s.setStatus .ready .none with
    rotors := rs
    refl := U
    reports := s.reports ++ [.success]
    ret := none }

/-- Raising a construction error (60_exceptions.md R126, 43_construction.md R111): ERR takes the code, MODE becomes
UNCONFIGURED, the contents are unspecified, the error is reported to the host. Nothing is saved and control goes
nowhere; there is no return from it (R127). -/
def State.raise (s : State) (e : ConfigError) : State :=
  { s.unspecify.setStatus .unconfigured e.err with
    reports := s.reports ++ [.failed e]
    ret := none }

/-- The reset event (70_reset_and_hazards.md R140). What the host has already received or not yet presented is the
host's, and stays (log 16). -/
def State.resetEvent (s : State) : State :=
  { s.unspecify.setStatus .unconfigured .none with ret := none }

/-- Every operation but CONFIG has meaning in mode READY only (60_exceptions.md R129, 40_rotor.md, 42_signal_path.md). -/
def State.whenReady (s : State) (k : Host.Outcome State Fault Refusal) : Host.Outcome State Fault Refusal :=
  match s.mode with
  | .ready => k
  | .unconfigured => .refused .unconfigured

/-- Rotor number `k` as an operand of STEP, FWD and BWD: `0 <= k < N` (40_rotor.md R67, R69, R70). -/
def State.withRotor (s : State) (k : Nat) (f : Rotor → Host.Outcome State Fault Refusal) :
    Host.Outcome State Fault Refusal :=
  match s.rotors[k]? with
  | some r => f r
  | none => .refused (.noSuchRotor k)

/-- The result of an inverse lookup, refused where the table gives none (20_memory.md R32, U15). -/
def found (x : Option Sym) (f : Sym → Host.Outcome State Fault Refusal) : Host.Outcome State Fault Refusal :=
  match x with
  | some y => f y
  | none => .refused .tableNotPermutation

/-- ENC of one symbol: step the stack, then traverse the path at the stepped positions; `f` receives the stepped
state and the output symbol (42_signal_path.md R86, R90). -/
def State.encipher (s : State) (i : Sym) (f : State → Sym → Host.Outcome State Fault Refusal) :
    Host.Outcome State Fault Refusal :=
  found (signalPath s.stepAll.rotors s.stepAll.refl i) (f s.stepAll)

/-- The next thing the host has presented, and the state with it taken (20_memory.md R38). -/
def State.take (s : State) : Option (Event × State) :=
  match s.inbox with
  | [] => none
  | e :: rest => some (e, { s with inbox := rest })

/-- Place an event where the block takes its next one. -/
def State.present (s : State) (e : Event) : State := { s with inbox := e :: s.inbox }

/-- The tables of the smallest machine with a rotor (95_test_vectors.md section 2, ID and AT): the identity. -/
def idTable : Table := Vector.ofFn fun a => a

/-- Entry `a` holds `25 - a` (95_test_vectors.md section 2, AT). -/
def atTable : Table := Vector.ofFn fun a => mod26 (25 - (a.val : Int))

/-- What the host does before any operation but CONFIG has meaning (70_reset_and_hazards.md R142): a configuration,
here that of 95_test_vectors.md Program E line 4. A state that is READY stays as it is, and so does one about to
be given a CONFIG. Used by `State.withFetchWord` alone (log 11). -/
def State.bootFor (s : State) (raw : Raw) : State :=
  match raw with
  | .transaction 1#1 _ _ => s
  | _ =>
    match s.mode with
    | .ready => s
    | .unconfigured => { s.setStatus .ready .none with rotors := [⟨idTable, 0⟩], refl := atTable }

end Sys2Proof.Machine
end

