-- ==== Sys2Proof/Machine/Operands.lean ====
section
/-! DEFINITION. Operand assembly of CONFIG: a wiring string's table (30_encoding.md R51), its validation
(43_construction.md R106), the initial position (30_encoding.md R52, 43_construction.md R108), and the three checks
in their order (43_construction.md R105, R109). -/

namespace Sys2Proof.Machine

/-- The symbols of a wiring string, in order, if every character is a letter (30_encoding.md R48, R51). -/
def symsOf : WiringString → Option (List Sym)
  | [] => some []
  | c :: w =>
    match symOfChar c, symsOf w with
    | some i, some is => some (i :: is)
    | _, _ => none

/-- The table of 26 symbols whose entry `a` is the symbol number `a` (30_encoding.md R51). -/
def tableOfSyms (is : List Sym) : Option Table :=
  if h : is.length = 26 then some ⟨is.toArray, by simpa using h⟩ else none

/-- `table_of(w)` of a wiring string that passes `is_perm_string(w)`: 26 characters, all letters, all different
(43_construction.md R106, 30_encoding.md R51). -/
def permTable (w : WiringString) : Option Table :=
  match symsOf w with
  | some is => if is.Nodup then tableOfSyms is else none
  | none => none

/-- The initial-position operand: legal exactly in `0..25`, never reduced (30_encoding.md R52, 43_construction.md R108). -/
def posOperand (p : Int) : Option Sym :=
  if h : 0 ≤ p ∧ p ≤ 25 then some ⟨p.toNat, by omega⟩ else none

/-- Check 1 on the rotor strings, rotor number `k` first (43_construction.md R105, R109). -/
def checkWirings (k : Nat) : List RotorCfg → Except ConfigError (List Table)
  | [] => .ok []
  | r :: rs =>
    match permTable r.wiring with
    | none => .error (.invalidWiring (.rotor k))
    | some T =>
      match checkWirings (k + 1) rs with
      | .error e => .error e
      | .ok Ts => .ok (T :: Ts)

/-- Check 1 on the reflector string (43_construction.md R105). -/
def checkReflString (w : WiringString) : Except ConfigError Table :=
  match permTable w with
  | none => .error (.invalidWiring .reflector)
  | some U => .ok U

/-- Entry `a` of a reflector table fails check 2 (43_construction.md R107). -/
def reflFails (U : Table) (a : Sym) : Bool := tabRead U (tabRead U a) != a || tabRead U a == a

/-- Check 2: the lowest index that fails is named (43_construction.md R107, R109). -/
def checkReflector (U : Table) : Except ConfigError Unit :=
  match allSyms.find? (reflFails U) with
  | some a => .error (.invalidReflector a)
  | none => .ok ()

/-- Check 3, rotor number `k` first (43_construction.md R105, R108). -/
def checkPositions (k : Nat) : List RotorCfg → Except ConfigError (List Sym)
  | [] => .ok []
  | r :: rs =>
    match posOperand r.pos with
    | none => .error (.invalidPosition k)
    | some p =>
      match checkPositions (k + 1) rs with
      | .error e => .error e
      | .ok ps => .ok (p :: ps)

/-- The three checks of CONFIG in the priority order of 43_construction.md R109; on success, the rotors and the
reflector to commit. It reads the record alone (R105). -/
def judge (rec : Record) : Except ConfigError (List Rotor × Table) :=
  match checkWirings 0 rec.rotors with
  | .error e => .error e
  | .ok Ts =>
    match checkReflString rec.refl with
    | .error e => .error e
    | .ok U =>
      match checkReflector U with
      | .error e => .error e
      | .ok () =>
        match checkPositions 0 rec.rotors with
        | .error e => .error e
        | .ok ps => .ok (List.zipWith Rotor.mk Ts ps, U)

/-- Whether the instance has slots for `n` rotors (43_construction.md R114). -/
def State.hasRoomFor (s : State) (n : Nat) : Bool :=
  match s.nMax with
  | none => true
  | some m => decide (n ≤ m)

end Sys2Proof.Machine
end

