-- ==== Sys2Proof/Machine/Construction.lean ====
section
/-! DEFINITION. Construction: CONFIG (43_construction.md). -/

namespace Sys2Proof.Machine

/-- CONFIG rec (43_construction.md R105): in either mode; commits on success (R110), raises one error otherwise
(R111). A record the instance has no room for cannot be presented (R114). -/
def execConfig (rec : Record) (s : State) : Host.Outcome State Fault Refusal :=
  if s.hasRoomFor rec.rotors.length then
    match judge rec with
    | .ok (rs, U) => .next (s.commit rs U)
    | .error e => .next (s.raise e)
  else .refused .recordTooLong

end Sys2Proof.Machine
end

