-- ==== Sys2Proof/Machine/Reflector.lean ====
section
/-! DEFINITION. The operation of the reflector: REFL (41_reflector.md). -/

namespace Sys2Proof.Machine

/-- REFL x (41_reflector.md R80): returns `U[x]`, writes nothing, reads no position. -/
def execRefl (x : Sym) (s : State) : Host.Outcome State Fault Refusal :=
  s.whenReady (.next (s.returns (.sym (tabRead s.refl x))))

end Sys2Proof.Machine
end

