-- ==== Sys2Proof/Machine/Rotor.lean ====
section
/-! DEFINITION. The operations of the rotors: STEP, STEPALL, FWD, BWD (40_rotor.md). -/

namespace Sys2Proof.Machine

/-- STEPALL (40_rotor.md R68). -/
def execStepAll (s : State) : Host.Outcome State Fault Refusal :=
  s.whenReady (.next s.stepAll)

/-- STEP k (40_rotor.md R67). -/
def execStep (k : Nat) (s : State) : Host.Outcome State Fault Refusal :=
  s.whenReady (s.withRotor k fun r => .next (s.stepRotor k r))

/-- FWD k, i (40_rotor.md R69): returns a symbol, writes nothing. -/
def execFwd (k : Nat) (i : Sym) (s : State) : Host.Outcome State Fault Refusal :=
  s.whenReady (s.withRotor k fun r => .next (s.returns (.sym (Rotor.fwd r i))))

/-- BWD k, x (40_rotor.md R70): returns an index, writes nothing. -/
def execBwd (k : Nat) (x : Sym) (s : State) : Host.Outcome State Fault Refusal :=
  s.whenReady (s.withRotor k fun r => found (Rotor.bwd r x) fun y => .next (s.returns (.sym y)))

end Sys2Proof.Machine
end

