-- ==== Sys2Proof/Machine/SignalPath.lean ====
section
/-! DEFINITION. The signal path and the message transform: ENC, ENC.L, PASS, BYPASS, CHAR, PROCESS
(42_signal_path.md). -/

namespace Sys2Proof.Machine

/-- ENC i, of a capital letter (42_signal_path.md R86): returns the output symbol. -/
def execEnc (i : Sym) (s : State) : Host.Outcome State Fault Refusal :=
  s.whenReady (s.encipher i fun t y => .next (t.returns (.sym y)))

/-- ENC.L i, of a small letter: the same operation; only the assembly of `i` differs (42_signal_path.md R86). -/
def execEncL (i : Sym) (s : State) : Host.Outcome State Fault Refusal :=
  s.whenReady (s.encipher i fun t y => .next (t.returns (.sym y)))

/-- PASS c (42_signal_path.md R87): returns a character that is no letter; no stepping, no table access. -/
def execPass (c : CharW) (s : State) : Host.Outcome State Fault Refusal :=
  s.whenReady (if (symOfChar c).isNone then .next (s.returns (.chr c)) else .refused .passOfLetter)

/-- BYPASS c (30_encoding.md R54, 42_signal_path.md R87): routes the input character to the output unchanged. -/
def execBypass (c : CharW) (s : State) : Host.Outcome State Fault Refusal :=
  s.whenReady (.next (s.returns (.chr c)))

/-- CHAR c (42_signal_path.md R88): a letter is enciphered and comes out as a capital, any other character is
emitted as it came; refused while UNCONFIGURED (60_exceptions.md R129). -/
def execChar (c : CharW) (s : State) : Host.Outcome State Fault Refusal :=
  s.whenReady (match symOfChar c with
    | none => .next (s.emit c)
    | some i => s.encipher i fun t y => .next (t.emit (charOfSym y)))

/-- PROCESS m (42_signal_path.md R89): one CHAR after another, front to back. -/
def process : List CharW → State → Host.Outcome State Fault Refusal
  | [], s => .next s
  | c :: m, s =>
    match execChar c s with
    | .next t => process m t
    | .fault r => .fault r
    | .refused r => .refused r

/-- The operation of stage `t` of a letter in a machine of `n` rotors, on the symbol that enters it
(42_signal_path.md R85). -/
def stageInstr (n t : Nat) (x : Sym) : Instr :=
  if t < n then .fwd (n - 1 - t) x else if t = n then .refl x else .bwd (t - n - 1) x

/-- How many letters a message holds (40_rotor.md R74). -/
def letterCount (m : List CharW) : Nat := m.countP fun c => (symOfChar c).isSome

/-- The capital form of a letter; any other character as it is (42_signal_path.md R96, 70_reset_and_hazards.md R148). -/
def capitalForm (c : CharW) : CharW :=
  match symOfChar c with
  | some i => charOfSym i
  | none => c

end Sys2Proof.Machine
end

