-- ==== Sys2Proof/Machine/Dispatch.lean ====
section
/-! DEFINITION. The meaning of each operation of 30_encoding.md R55, one arm each. -/

namespace Sys2Proof.Machine

def exec (i : Instr) (s : State) : Host.Outcome State Fault Refusal :=
  match i with
  | .config rec => Sys2Proof.Machine.execConfig rec s
  | .char c => Sys2Proof.Machine.execChar c s
  | .enc x => Sys2Proof.Machine.execEnc x s
  | .encL x => Sys2Proof.Machine.execEncL x s
  | .pass c => Sys2Proof.Machine.execPass c s
  | .stepAll => Sys2Proof.Machine.execStepAll s
  | .step k => Sys2Proof.Machine.execStep k s
  | .fwd k x => Sys2Proof.Machine.execFwd k x s
  | .refl x => Sys2Proof.Machine.execRefl x s
  | .bwd k x => Sys2Proof.Machine.execBwd k x s
  | .bypass c => Sys2Proof.Machine.execBypass c s

end Sys2Proof.Machine
end

