-- ==== Sys2Proof/Machine/Step.lean ====
section
/-! DEFINITION. One step of the machine: the next event the host has presented takes effect, whole
(20_memory.md R38). With nothing presented the block idles (log 6). -/

namespace Sys2Proof.Machine

def step (s : State) : Host.Outcome State Fault Refusal :=
  match s.take with
  | none => .next s
  | some (.reset, t) => .next t.resetEvent
  | some (.op raw, t) =>
    match decode raw with
    | .ok i => exec i t
    | .error (.notASymbol w) => .refused (.notASymbol w)

/-- `s` with the instruction of a table word presented next, and, for an operation that has meaning in mode READY
only, a configuration in place where there is none (log 11, 70_reset_and_hazards.md R142). -/
def State.withFetchWord (s : State) (nbits w : Nat) : State :=
  (s.bootFor (tableRaw nbits w)).present (.op (tableRaw nbits w))

end Sys2Proof.Machine
end

