-- ==== Sys2Proof/Machine/Sequence.lean ====
section
/-! DEFINITION. Sequences of operations: an expansion run in order (30_encoding.md R59) and the stage schedule of
a letter run stage by stage (42_signal_path.md R85). -/

namespace Sys2Proof.Machine

/-- Run operations one after another, stopping at the first that does not complete. -/
def execAll : List Instr → State → Host.Outcome State Fault Refusal
  | [], s => .next s
  | i :: is, s =>
    match exec i s with
    | .next t => execAll is t
    | .fault r => .fault r
    | .refused r => .refused r

/-- A pseudo-operation is its expansion (30_encoding.md R59). -/
def execPseudo (p : Pseudo) (s : State) : Host.Outcome State Fault Refusal := execAll p.expand s

/-- The symbol leaving the last of the stages `ts` when `x` enters the first, each stage run as the operation it is
and its result handed to the next (42_signal_path.md R85). -/
def runStages (n : Nat) : List Nat → Sym → State → Option Sym
  | [], x, _ => some x
  | t :: ts, x, s =>
    match exec (stageInstr n t x) s with
    | .next s' =>
      match s'.ret with
      | some (.sym y) => runStages n ts y s'
      | _ => none
    | _ => none

end Sys2Proof.Machine
end

