-- ==== Sys2Proof/Safety.lean ====
section
/-! DEFINITION. What claims speak of: the invariant INV (10_state.md R21), records that pass the checks stated
independently of how the machine checks them (43_construction.md R106 to R108), matched states (00_scope.md
glossary), and inboxes a host can have filled. -/

namespace Sys2Proof.Machine

/-- A table is a permutation: every symbol stands at exactly one index (10_state.md R13). -/
abbrev TableIsPerm (T : Table) : Prop :=
  ∀ x : Sym, ∃ a : Sym, tabRead T a = x ∧ ∀ b : Sym, tabRead T b = x → b = a

/-- A table is an involution without fixed point (10_state.md R14). -/
abbrev TableIsReflector (U : Table) : Prop :=
  ∀ a : Sym, tabRead U (tabRead U a) = a ∧ tabRead U a ≠ a

/-- `INV` (10_state.md R21): whenever MODE = READY, (a) N is within N_MAX, (b) every rotor table is a permutation,
(c) the reflector table is a permutation and an involution without fixed point, (e) ERR = 0. Part (d), positions
in 0..25, holds by the type of `Rotor.pos`. -/
abbrev State.Inv (s : State) : Prop :=
  s.mode = .ready →
    s.hasRoomFor s.n = true ∧ (∀ r ∈ s.rotors, TableIsPerm r.wiring) ∧
      TableIsPerm s.refl ∧ TableIsReflector s.refl ∧ s.err = .none

/-- `is_perm_string(w)` in the words of 43_construction.md R106. -/
abbrev ValidWiring (w : WiringString) : Prop :=
  w.length = 26 ∧ (∀ c ∈ w, (symOfChar c).isSome = true) ∧ (w.map symOfChar).Nodup

/-- Index `a` of a reflector string fails 43_construction.md R107, said of characters: character `a` is letter `b`,
and character `b` is not letter `a` or `b` is `a`. -/
abbrev ReflectorFailsAt (w : WiringString) (a : Sym) : Prop :=
  ∃ b : Sym, (w[a.val]?).bind symOfChar = some b ∧ ((w[b.val]?).bind symOfChar ≠ some a ∨ b = a)

/-- The reflector check (43_construction.md R107), of a string that passes R106. -/
abbrev ValidReflector (w : WiringString) : Prop := ∀ a : Sym, ¬ ReflectorFailsAt w a

/-- The position check (43_construction.md R108). -/
abbrev ValidPosition (p : Int) : Prop := 0 ≤ p ∧ p ≤ 25

/-- Every string of the record passes R106 (check 1 of 43_construction.md R105). -/
abbrev Record.WiringsValid (rec : Record) : Prop :=
  (∀ r ∈ rec.rotors, ValidWiring r.wiring) ∧ ValidWiring rec.refl

/-- The record passes all three checks (43_construction.md R105). -/
abbrev Record.Valid (rec : Record) : Prop :=
  Record.WiringsValid rec ∧ ValidReflector rec.refl ∧ ∀ r ∈ rec.rotors, ValidPosition r.pos

/-- Matched state (00_scope.md glossary, 42_signal_path.md R96): equal tables and equal positions. -/
abbrev Matched (s t : State) : Prop := s.rotors = t.rotors ∧ s.refl = t.refl

/-- What a host can present: the reset event and transactions (30_encoding.md R45, R55). -/
def Event.fromHost : Event → Bool
  | .reset => true
  | .op (.transaction _ _ _) => true
  | .op _ => false

/-- Between transactions of a host: no local value of an operation survives (10_state.md R20), and what is still to
come is the host's. -/
abbrev State.Between (s : State) : Prop := s.ret = none ∧ ∀ e ∈ s.inbox, e.fromHost = true

end Sys2Proof.Machine
end

