-- ==== Sys2Proof/WellFormed.lean ====
section
/-! DEFINITION. Which operations are well formed as syntax. Symbols, characters, integers and records are legal
in their types already; what is left is PASS, whose operand is no letter (42_signal_path.md R87). A rotor number
is legal below `N`, which is state, so the machine checks it. -/

namespace Sys2Proof

/-- `PASS` takes a character with `sym_of_char(c) = NotLetter` (42_signal_path.md R87). -/
def Instr.wellFormed : Instr → Bool
  | .config _ => true
  | .char _ => true
  | .enc _ => true
  | .encL _ => true
  | .pass c => (symOfChar c).isNone
  | .stepAll => true
  | .step _ => true
  | .fwd _ _ => true
  | .refl _ => true
  | .bwd _ _ => true
  | .bypass _ => true

end Sys2Proof
end

