-- ==== Sys2Proof/Certificates/Slice0/Obligations.lean ====
section
/-! DEFINITION. The statements for the provers. Each names the rule of spec/ it formalises. A next state written
`{ s with … }` says the whole frame: every field not named is unchanged. -/

open Sys2Proof Sys2Proof.Machine

/-! ## The step -/

/-- A step runs the decoded instruction: when the words presented next decode to `i`, the step is `exec i` on the
state with those words taken. For the transactions a host issues this is 20_memory.md R38 and 30_encoding.md R45. That
what is presented is the head of `State.inbox` is the model's choice (log 6), and so is that the words of a decode or
stage operation, which no host issues (R45, R55), can be presented alone and are run alike (log 7). -/
def Obligations.StepRunsDecodedInstruction : Prop :=
  ∀ (s : State) (raw : Raw) (rest : List Event) (i : Instr),
    s.inbox = .op raw :: rest → decode raw = .ok i → step s = exec i { s with inbox := rest }

/-- The reset event (70_reset_and_hazards.md R140): it completes in every state, MODE becomes UNCONFIGURED and ERR 0.
That the streams stay is the model's choice (log 16). The contents it leaves are free values: nothing is said. -/
def Obligations.StepTakesResetEvent : Prop :=
  ∀ (s : State) (rest : List Event), s.inbox = .reset :: rest →
    ∃ t, step s = .next t ∧ t.mode = .unconfigured ∧ t.err = .none ∧
      t.inbox = rest ∧ t.outbox = s.outbox ∧ t.reports = s.reports ∧ t.nMax = s.nMax ∧ t.ret = none

/-- Two choices of the model. With nothing presented the block idles (log 6). A control word of a path selection
that carries a symbol word 26 to 31 is refused by name (log 9): 30_encoding.md R46 says only that such words are no
symbols and cannot be presented. -/
def Obligations.StepIdlesOrRefusesNonSymbols : Prop :=
  (∀ s : State, s.inbox = [] → step s = .next s) ∧
  (∀ (s : State) (rest : List Event) (sel : BitVec 2) (k : Nat) (w : SymW) (c : CharW),
    s.inbox = .op (.stage sel k w c) :: rest → sel ≠ 0b11#2 → 26 ≤ w.toNat →
      step s = .refused (.notASymbol w))

/-- What reset leaves (10_state.md R25, R140): MODE = UNCONFIGURED = 0 and ERR = 0, in the host's machine and in the
instance of every capacity N_MAX (00_scope.md R5). -/
def Obligations.ResetStatus : Prop :=
  (State.reset.mode = .unconfigured ∧ State.reset.mode.bit = 0#1 ∧
    State.reset.err = .none ∧ State.reset.err.code = 0#2) ∧
  ∀ nMax : Option Nat, (State.resetFor nMax).mode = .unconfigured ∧ (State.resetFor nMax).err = .none ∧
    (State.resetFor nMax).nMax = nMax

/-- The invariant holds at reset, and so does the one between transactions, in the host's machine and in the instance
of every capacity N_MAX. -/
def Obligations.InvariantsHoldAtReset : Prop :=
  (State.reset.Inv ∧ State.reset.Between) ∧
    ∀ nMax : Option Nat, (State.resetFor nMax).Inv ∧ (State.resetFor nMax).Between

/-- `INV` (10_state.md R21) is kept by every step, from every state that meets it. -/
def Obligations.EveryStepKeepsInv : Prop :=
  ∀ s t : State, s.Inv → step s = .next t → t.Inv

/-- `INV` is established by every CONFIG that completes, from any state whatever (10_state.md R21, R110). -/
def Obligations.ConfigEstablishesInv : Prop :=
  ∀ (s t : State) (rec : Record), exec (.config rec) s = .next t → t.Inv

/-- No local value of an operation survives a transaction (10_state.md R20): between transactions of a host nothing
is returned, and every step keeps it so. -/
def Obligations.EveryStepKeepsBetween : Prop :=
  ∀ s t : State, s.Between → step s = .next t → t.Between

/-- The host's characters taken one step each are PROCESS of them (20_memory.md R38, 42_signal_path.md R89). -/
def Obligations.StepsOfCharactersAreProcess : Prop :=
  ∀ (m : List CharW) (s t : State) (rest : List Event),
    process m { s with inbox := rest } = .next t →
      Host.Core.run Sys2Proof.core m.length
        { s with inbox := m.map (fun c => Event.op (.transaction 0#1 c emptyRecord)) ++ rest } = .next t

/-! ## Encoding -/

/-- Decoding the words of a well-formed operation gives it back, for every row of the operation map
(30_encoding.md R53 to R55). -/
def Obligations.DecodeOfEncode : Prop :=
  ∀ i : Instr, i.wellFormed = true → decode (encode i) = .ok i

/-- Decoding refuses exactly the control words of a path selection whose symbol word is 26 to 31. The refusal is the
model's choice (log 9): 30_encoding.md R46 and R56 say only that such words are no symbols and are unreachable. That no
character and no transaction is refused is R56's: none of them is illegal. -/
def Obligations.DecodeRefusesExactlyNonSymbols : Prop :=
  ∀ raw : Raw, (∃ e, decode raw = .error e) ↔
    ∃ (sel : BitVec 2) (k : Nat) (w : SymW) (c : CharW),
      raw = .stage sel k w c ∧ sel ≠ 0b11#2 ∧ 26 ≤ w.toNat

/-- A few words written out from the spec's encodings (30_encoding.md R47, R53, R54). -/
def Obligations.WordsOfTheSpecDecode : Prop :=
  decode (.character 0b01000001#8) = .ok (.enc 0) ∧ decode (.character 0b01011010#8) = .ok (.enc 25) ∧
  decode (.character 0b01100001#8) = .ok (.encL 0) ∧ decode (.character 0b00101100#8) = .ok (.pass 0x2C#8) ∧
  decode (.transaction 0b0#1 0b01000001#8 emptyRecord) = .ok (.char 0x41#8) ∧
  decode (.transaction 0b1#1 0#8 emptyRecord) = .ok (.config emptyRecord) ∧
  decode (.stage 0b00#2 2 0b00011#5 0#8) = .ok (.fwd 2 3) ∧
  decode (.stage 0b01#2 0 0b01111#5 0#8) = .ok (.refl 15) ∧
  decode (.stage 0b10#2 1 0b10100#5 0#8) = .ok (.bwd 1 20) ∧
  decode (.stage 0b11#2 0 0#5 0x20#8) = .ok (.bypass 0x20#8)

/-- `sym_of_char` (30_encoding.md R48). -/
def Obligations.SymbolOfCharacter : Prop :=
  ∀ c : CharW, (symOfChar c).map Fin.val =
    if 0x41 ≤ c.toNat ∧ c.toNat ≤ 0x5A then some (c.toNat - 0x41)
    else if 0x61 ≤ c.toNat ∧ c.toNat ≤ 0x7A then some (c.toNat - 0x61)
    else none

/-- `char_of_sym` and its law (30_encoding.md R49). -/
def Obligations.CharacterOfSymbol : Prop :=
  (∀ i : Sym, (charOfSym i).toNat = 0x41 + i.val ∧ symOfChar (charOfSym i) = some i ∧
    clsOf (charOfSym i) = 0b010#3 ∧ (ordOf (charOfSym i)).toNat = i.val + 1) ∧
  (∀ (c : CharW) (i : Sym), symOfChar c = some i →
    (c.toNat ≤ 0x5A → charOfSym i = c) ∧ (0x61 ≤ c.toNat → charOfSym i = c - 0x20#8))

/-- Each of the 256 character words selects exactly one of ENC, ENC.L and PASS (30_encoding.md R55, R56), as the
fields of 30_encoding.md R47 say: the three conditions exclude one another and exhaust the codes. -/
def Obligations.CharacterSelects : Prop :=
  ∀ c : CharW, decodeChar c =
    if h : clsOf c = 0b010#3 ∧ 1 ≤ (ordOf c).toNat ∧ (ordOf c).toNat ≤ 26 then
      .enc ⟨(ordOf c).toNat - 1, by omega⟩
    else if h : clsOf c = 0b011#3 ∧ 1 ≤ (ordOf c).toNat ∧ (ordOf c).toNat ≤ 26 then
      .encL ⟨(ordOf c).toNat - 1, by omega⟩
    else .pass c

/-- A pseudo-operation is its expansion (30_encoding.md R59): PROCESS, ENCRYPT and DECRYPT are one transform
(42_signal_path.md R97), RESET is the CONFIG of the kept record, SETPOS the CONFIG of the kept strings with the new
positions, one for each rotor (of another number of positions nothing is said: log 23). -/
def Obligations.PseudoOperationsExpand : Prop :=
  ∀ (m : List CharW) (rec : Record) (ps : List Int) (s : State),
    execPseudo (.process m) s = process m s ∧ execPseudo (.encrypt m) s = process m s ∧
    execPseudo (.decrypt m) s = process m s ∧ execPseudo (.reset rec) s = exec (.config rec) s ∧
    (ps.length = rec.rotors.length → ∃ rec' : Record,
      execPseudo (.setPos rec ps) s = exec (.config rec') s ∧ rec'.refl = rec.refl ∧
      rec'.rotors.map RotorCfg.wiring = rec.rotors.map RotorCfg.wiring ∧ rec'.rotors.map RotorCfg.pos = ps)

/-! ## Arithmetic -/

/-- `mod26` (00_scope.md R7, 40_rotor.md R65): the residue of any integer, unique; the exact results of the sum and the
difference of two symbols; that the two undo one another. -/
def Obligations.ModularArithmetic : Prop :=
  (∀ v : Int, (26 : Int) ∣ v - (mod26 v).val ∧ ∀ r : Sym, (26 : Int) ∣ v - r.val → r = mod26 v) ∧
  ∀ a b : Sym,
    ((mod26 (a.val + b.val)).val = if a.val + b.val ≤ 25 then a.val + b.val else a.val + b.val - 26) ∧
    ((mod26 ((a.val : Int) - b.val)).val = if b.val ≤ a.val then a.val - b.val else a.val + 26 - b.val) ∧
    mod26 (((mod26 (a.val + b.val)).val : Int) - b.val) = a ∧
    mod26 ((mod26 ((a.val : Int) - b.val)).val + b.val) = a

/-! ## Rotors -/

/-- STEP k (40_rotor.md R67): in READY, for every rotor number below N, it completes; POS[k] becomes
mod26(POS[k] + 1), no other position, no table and no other field changes; 26 of them give the rotors back. -/
def Obligations.StepAdvancesOneRotor : Prop :=
  ∀ (s : State) (k : Nat) (r : Rotor), s.mode = .ready → s.rotors[k]? = some r →
    (∃ t, exec (.step k) s = .next t ∧ t = { s with rotors := t.rotors, ret := none } ∧
      t.rotors[k]? = some { r with pos := mod26 (r.pos.val + 1) } ∧
      (∀ j, j ≠ k → t.rotors[j]? = s.rotors[j]?)) ∧
    ∃ u, execAll (List.replicate 26 (.step k)) s = .next u ∧ u.rotors = s.rotors

/-- STEPALL (40_rotor.md R68): in READY it completes; every rotor's position advances by one modulo 26 whatever its
neighbours hold (R72), no table and no other field changes. -/
def Obligations.StepAllAdvancesEveryRotor : Prop :=
  ∀ s : State, s.mode = .ready →
    ∃ t, exec .stepAll s = .next t ∧ t = { s with rotors := t.rotors, ret := none } ∧ t.n = s.n ∧
      ∀ (k : Nat) (r : Rotor), s.rotors[k]? = some r →
        t.rotors[k]? = some { r with pos := mod26 (r.pos.val + 1) }

/-- STEPALL is STEP of every rotor once, in any order: the order cannot be observed (40_rotor.md R68, D25). -/
def Obligations.StepAllIsStepsInAnyOrder : Prop :=
  ∀ (s : State) (ks : List Nat), s.mode = .ready → ks.Perm (List.range s.n) →
    ∃ t u, execAll (ks.map .step) s = .next t ∧ exec .stepAll s = .next u ∧ t.rotors = u.rotors

/-- FWD k, i (40_rotor.md R69): in READY, for every rotor number below N, it returns W[k][mod26(i + POS[k])] and
changes nothing. -/
def Obligations.FwdLooksUpTheShiftedIndex : Prop :=
  ∀ (s : State) (k : Nat) (r : Rotor) (i : Sym), s.mode = .ready → s.rotors[k]? = some r →
    exec (.fwd k i) s =
      .next { s with ret := some (.sym (tabRead r.wiring (mod26 (i.val + r.pos.val)))) }

/-- BWD k, x (40_rotor.md R70): in READY, for every rotor whose table is a permutation, it finds the one index `j` with
W[k][j] = x, returns mod26(j - POS[k]) and changes nothing. -/
def Obligations.BwdFindsThenShiftsBack : Prop :=
  ∀ (s : State) (k : Nat) (r : Rotor) (x : Sym), s.mode = .ready → s.rotors[k]? = some r →
    TableIsPerm r.wiring →
    ∃ j : Sym, tabRead r.wiring j = x ∧ (∀ j', tabRead r.wiring j' = x → j' = j) ∧
      exec (.bwd k x) s = .next { s with ret := some (.sym (mod26 ((j.val : Int) - r.pos.val))) }

/-- Where a table does not hold the symbol exactly once, the inverse lookup has no result and BWD is refused by name,
never answered with a first match (20_memory.md R32, U15). -/
def Obligations.BwdRefusedWithoutUniqueIndex : Prop :=
  ∀ (s : State) (k : Nat) (r : Rotor) (x : Sym), s.mode = .ready → s.rotors[k]? = some r →
    (¬ ∃ j : Sym, tabRead r.wiring j = x ∧ ∀ j', tabRead r.wiring j' = x → j' = j) →
    exec (.bwd k x) s = .refused .tableNotPermutation

/-- A rotor number that is not below N is no operand of STEP, FWD and BWD: refused by name (log 12). -/
def Obligations.RotorNumberOutOfRangeRefused : Prop :=
  ∀ (s : State) (k : Nat) (x : Sym), s.mode = .ready → s.n ≤ k →
    exec (.step k) s = .refused (.noSuchRotor k) ∧ exec (.fwd k x) s = .refused (.noSuchRotor k) ∧
    exec (.bwd k x) s = .refused (.noSuchRotor k)

/-- The inverse law (40_rotor.md R73): with the position held, BWD undoes FWD and FWD undoes BWD. -/
def Obligations.RotorInverseLaw : Prop :=
  ∀ (s : State) (k : Nat) (r : Rotor) (x : Sym), s.mode = .ready → s.rotors[k]? = some r →
    TableIsPerm r.wiring →
    (∃ t y u, exec (.fwd k x) s = .next t ∧ t.ret = some (.sym y) ∧
      exec (.bwd k y) t = .next u ∧ u.ret = some (.sym x)) ∧
    (∃ t y u, exec (.bwd k x) s = .next t ∧ t.ret = some (.sym y) ∧
      exec (.fwd k y) t = .next u ∧ u.ret = some (.sym x))

/-- At a fixed position FWD is a permutation of the symbols: every symbol is returned for exactly one operand
(40_rotor.md R75). -/
def Obligations.FwdIsAPermutation : Prop :=
  ∀ (s : State) (k : Nat) (r : Rotor) (y : Sym), s.mode = .ready → s.rotors[k]? = some r →
    TableIsPerm r.wiring →
    ∃ i : Sym, exec (.fwd k i) s = .next { s with ret := some (.sym y) } ∧
      ∀ i', exec (.fwd k i') s = .next { s with ret := some (.sym y) } → i' = i

/-! ## Reflector -/

/-- REFL x (41_reflector.md R80): in READY it returns U[x] and changes nothing. -/
def Obligations.ReflLooksUp : Prop :=
  ∀ (s : State) (x : Sym), s.mode = .ready →
    exec (.refl x) s = .next { s with ret := some (.sym (tabRead s.refl x)) }

/-- The involution law (41_reflector.md R81): REFL of REFL is the symbol, and REFL is never the symbol. -/
def Obligations.ReflectorInvolutionLaw : Prop :=
  ∀ (s : State) (x : Sym), s.mode = .ready → s.Inv →
    ∃ t y u, exec (.refl x) s = .next t ∧ t.ret = some (.sym y) ∧ y ≠ x ∧
      exec (.refl y) t = .next u ∧ u.ret = some (.sym x)

/-! ## Signal path -/

/-- PASS of a non-letter, and BYPASS of any character, return it unchanged and change nothing
(42_signal_path.md R87, 30_encoding.md R54). -/
def Obligations.PassAndBypassReturnTheCharacter : Prop :=
  ∀ (s : State) (c : CharW), s.mode = .ready →
    (symOfChar c = none → exec (.pass c) s = .next { s with ret := some (.chr c) }) ∧
    exec (.bypass c) s = .next { s with ret := some (.chr c) }

/-- PASS of a letter is no operation of the block: refused by name (log 13). -/
def Obligations.PassOfLetterRefused : Prop :=
  ∀ (s : State) (c : CharW) (i : Sym), s.mode = .ready → symOfChar c = some i →
    exec (.pass c) s = .refused .passOfLetter

/-- ENC i and ENC.L i (42_signal_path.md R86): in READY under INV they complete; the stack is stepped first, then the
symbol goes through the stages 0 to 2N of 42_signal_path.md R85, each run as the operation it is at the stepped
positions (R90); the last symbol is returned and nothing else changes. -/
def Obligations.EncStepsThenFollowsTheStages : Prop :=
  ∀ (s : State) (i : Sym), s.mode = .ready → s.Inv →
    ∃ t y, exec .stepAll s = .next t ∧ runStages s.n (List.range (2 * s.n + 1)) i t = some y ∧
      exec (.enc i) s = .next { t with ret := some (.sym y) } ∧
      exec (.encL i) s = .next { t with ret := some (.sym y) }

/-- The stage schedule (42_signal_path.md R85) of a machine of three rotors and of one without rotors. -/
def Obligations.StageScheduleOrder : Prop :=
  ∀ x : Sym, (List.range 7).map (fun t => stageInstr 3 t x) =
      [.fwd 2 x, .fwd 1 x, .fwd 0 x, .refl x, .bwd 0 x, .bwd 1 x, .bwd 2 x] ∧
    (List.range 1).map (fun t => stageInstr 0 t x) = [.refl x]

/-- Reciprocity of one letter (42_signal_path.md R92): at fixed positions the forward pass F is a permutation of the
symbols, the substitution is U conjugated by F, an involution without fixed point. -/
def Obligations.LetterReciprocity : Prop :=
  ∀ (s : State) (i : Sym), s.mode = .ready → s.Inv →
    ∃ t y u, exec (.enc i) s = .next t ∧ t.ret = some (.sym y) ∧
      Function.Bijective (forwardPass t.rotors) ∧
      forwardPass t.rotors y = tabRead s.refl (forwardPass t.rotors i) ∧ y ≠ i ∧
      exec (.enc y) s = .next u ∧ u.ret = some (.sym i) ∧ u.rotors = t.rotors

/-- CHAR c (42_signal_path.md R88): a letter is enciphered by ENC and emitted as a capital, any other character is
emitted as it came, and nothing else changes; while UNCONFIGURED it is refused (60_exceptions.md R129). -/
def Obligations.CharTransformsOneCharacter : Prop :=
  ∀ (s : State) (c : CharW),
    (s.mode = .unconfigured → exec (.char c) s = .refused .unconfigured) ∧
    (s.mode = .ready → symOfChar c = none →
      exec (.char c) s = .next { s with outbox := s.outbox ++ [c], ret := none }) ∧
    (∀ i : Sym, s.mode = .ready → s.Inv → symOfChar c = some i →
      ∃ t y, exec (.enc i) s = .next t ∧ t.ret = some (.sym y) ∧
        exec (.char c) s = .next { t with outbox := s.outbox ++ [charOfSym y], ret := none })

/-- No letter enciphers to itself (42_signal_path.md R95): the character emitted for a letter is never its capital
form, and ENC never returns its operand. -/
def Obligations.NoLetterEnciphersToItself : Prop :=
  ∀ (s : State) (c : CharW) (i : Sym), s.mode = .ready → s.Inv → symOfChar c = some i →
    (∃ t d, exec (.char c) s = .next t ∧ t.outbox = s.outbox ++ [d] ∧ d ≠ charOfSym i) ∧
    ∃ t y, exec (.enc i) s = .next t ∧ t.ret = some (.sym y) ∧ y ≠ i

/-- A letter whose path meets a table without a unique index is refused by name (20_memory.md R32, U15); under INV
no path does. -/
def Obligations.LetterRefusedWithoutUniqueIndex : Prop :=
  ∀ (s : State) (c : CharW) (i : Sym), s.mode = .ready → symOfChar c = some i →
    signalPath (s.rotors.map Rotor.step) s.refl i = none →
    exec (.enc i) s = .refused .tableNotPermutation ∧ exec (.encL i) s = .refused .tableNotPermutation ∧
    exec (.char c) s = .refused .tableNotPermutation

/-- While UNCONFIGURED every operation but CONFIG is refused (60_exceptions.md R129 for CHAR; for the operations inside
it, log 14). -/
def Obligations.UnconfiguredRefusesAllButConfig : Prop :=
  ∀ (s : State) (i : Instr), s.mode = .unconfigured → (∀ rec, i ≠ .config rec) →
    exec i s = .refused .unconfigured

/-- Totality (42_signal_path.md R91): in READY under INV every character and every message completes, and INV and READY
still hold. -/
def Obligations.TransformIsTotal : Prop :=
  ∀ (s : State) (m : List CharW), s.mode = .ready → s.Inv →
    ∃ t, process m s = .next t ∧ t.mode = .ready ∧ t.Inv

/-- The emitted characters are a function of the message, the tables and the positions and of nothing else
(42_signal_path.md R91): two states in matched state emit the same and stay matched. -/
def Obligations.OutputDependsOnTablesAndPositions : Prop :=
  ∀ (s u : State) (m : List CharW), s.mode = .ready → u.mode = .ready → s.Inv → u.Inv → Matched s u →
    ∃ t v out, process m s = .next t ∧ process m u = .next v ∧
      t.outbox = s.outbox ++ out ∧ v.outbox = u.outbox ++ out ∧ Matched t v

/-! ## Messages -/

/-- One output character per input character, in order; every non-letter at its place, unchanged; every letter a
capital, never its own (20_memory.md R41, 42_signal_path.md R94, R95, 30_encoding.md R49). -/
def Obligations.OneOutputPerInput : Prop :=
  ∀ (s : State) (m : List CharW), s.mode = .ready → s.Inv →
    ∃ t out, process m s = .next t ∧ t.outbox = s.outbox ++ out ∧ out.length = m.length ∧
      ∀ (j : Nat) (c : CharW), m[j]? = some c →
        (symOfChar c = none → out[j]? = some c) ∧
        (∀ i, symOfChar c = some i → ∃ y, out[j]? = some (charOfSym y) ∧ y ≠ i)

/-- Deleting all non-letters from a message deletes exactly the same places from the result and changes no other output
and not the rotors (42_signal_path.md R94). -/
def Obligations.NonLettersDoNotDisturb : Prop :=
  ∀ (s : State) (m : List CharW), s.mode = .ready → s.Inv →
    ∃ t out u, process m s = .next t ∧ t.outbox = s.outbox ++ out ∧
      process (m.filter fun c => (symOfChar c).isSome) s = .next u ∧
      u.outbox = s.outbox ++ out.filter (fun c => (symOfChar c).isSome) ∧ u.rotors = t.rotors

/-- Closed form of the positions (40_rotor.md R74): after a message of `n` letters every POS[k] has advanced by `n`
modulo 26, and no table has changed. -/
def Obligations.PositionsCountLetters : Prop :=
  ∀ (s : State) (m : List CharW), s.mode = .ready → s.Inv →
    ∃ t, process m s = .next t ∧ t.n = s.n ∧ t.refl = s.refl ∧
      ∀ (k : Nat) (r : Rotor), s.rotors[k]? = some r →
        t.rotors[k]? = some { r with pos := mod26 (r.pos.val + letterCount m) }

/-- The rotors keep their relative offsets for ever (40_rotor.md R74, 42_signal_path.md R100). -/
def Obligations.OffsetsBetweenRotorsAreKept : Prop :=
  ∀ (s : State) (m : List CharW), s.mode = .ready → s.Inv →
    ∃ t, process m s = .next t ∧ ∀ (k k' : Nat) (p p' : Sym), s.pos k = some p → s.pos k' = some p' →
      ∃ q q', t.pos k = some q ∧ t.pos k' = some q' ∧
        mod26 ((q.val : Int) - q'.val) = mod26 ((p.val : Int) - p'.val)

/-- What an output depends on (42_signal_path.md R93): output `j`, of a letter `i`, is `i` substituted at the positions
advanced by the number of letters among inputs 0 to `j`, whichever letters they were. -/
def Obligations.OutputIsSubstitutionAtTheLetterCount : Prop :=
  ∀ (s : State) (m : List CharW), s.mode = .ready → s.Inv →
    ∃ t out, process m s = .next t ∧ t.outbox = s.outbox ++ out ∧
      ∀ (j : Nat) (c : CharW) (i : Sym), m[j]? = some c → symOfChar c = some i →
        ∃ y, out[j]? = some (charOfSym y) ∧
          signalPath (s.rotors.map fun r =>
            { r with pos := mod26 (r.pos.val + letterCount (m.take (j + 1))) }) s.refl i = some y

/-- Equal rate (42_signal_path.md R100): after any message whose number of letters is a multiple of 26, every letter is
enciphered as before it. -/
def Obligations.SubstitutionRepeatsAfter26Letters : Prop :=
  ∀ (s : State) (m : List CharW) (q : Nat) (i : Sym), s.mode = .ready → s.Inv → letterCount m = 26 * q →
    ∃ t u v y, process m s = .next t ∧ exec (.enc i) s = .next u ∧ exec (.enc i) t = .next v ∧
      u.ret = some (.sym y) ∧ v.ret = some (.sym y)

/-- State carries over (42_signal_path.md R98, R89): two messages one after the other are their concatenation, in every
state. -/
def Obligations.MessagesConcatenate : Prop :=
  ∀ (s t : State) (m₁ m₂ : List CharW), process m₁ s = .next t → process (m₁ ++ m₂) s = process m₂ t

/-- Self-reciprocity of messages (42_signal_path.md R96): of two instances in matched state, one enciphers a message and
the other turns the result back into the message with its small letters as capitals; they end in matched state. -/
def Obligations.MessageSelfReciprocity : Prop :=
  ∀ (x y : State) (m : List CharW), x.mode = .ready → y.mode = .ready → x.Inv → y.Inv → Matched x y →
    ∃ x' y' m', process m x = .next x' ∧ x'.outbox = x.outbox ++ m' ∧
      process m' y = .next y' ∧ y'.outbox = y.outbox ++ m.map capitalForm ∧ Matched x' y'

/-! ## Construction -/

/-- The commit of CONFIG (43_construction.md R110): a record that passes the checks of R106 to R108, stated here of the
strings themselves, completes in either mode; N, every W[k], every POS[k], U, ERR and MODE are written, success is
reported, nothing else changes, and INV holds. -/
def Obligations.ConfigCommits : Prop :=
  ∀ (s : State) (rec : Record), s.hasRoomFor rec.rotors.length = true → Record.Valid rec →
    ∃ t, exec (.config rec) s = .next t ∧
      t = { s with mode := .ready, err := .none, rotors := t.rotors, refl := t.refl,
                   reports := s.reports ++ [.success], ret := none } ∧
      t.n = rec.rotors.length ∧
      (∀ (k : Nat) (r : RotorCfg), rec.rotors[k]? = some r →
        ∃ q : Rotor, t.rotors[k]? = some q ∧ (q.pos.val : Int) = r.pos ∧
          ∀ (a : Sym) (c : CharW), r.wiring[a.val]? = some c → symOfChar c = some (tabRead q.wiring a)) ∧
      (∀ (a : Sym) (c : CharW), rec.refl[a.val]? = some c → symOfChar c = some (tabRead t.refl a)) ∧ t.Inv

/-- InvalidWiring is raised exactly when some string fails R106 (60_exceptions.md R121). -/
def Obligations.InvalidWiringExactlyWhen : Prop :=
  ∀ (s : State) (rec : Record), s.hasRoomFor rec.rotors.length = true →
    ∃ t, exec (.config rec) s = .next t ∧ (t.err = .invalidWiring ↔ ¬ Record.WiringsValid rec)

/-- InvalidReflector is raised exactly when every string passes R106 and the reflector fails R107
(60_exceptions.md R122). -/
def Obligations.InvalidReflectorExactlyWhen : Prop :=
  ∀ (s : State) (rec : Record), s.hasRoomFor rec.rotors.length = true →
    ∃ t, exec (.config rec) s = .next t ∧
      (t.err = .invalidReflector ↔ Record.WiringsValid rec ∧ ¬ ValidReflector rec.refl)

/-- InvalidPosition is raised exactly when the strings pass R106 and R107 and some position fails R108
(60_exceptions.md R123). -/
def Obligations.InvalidPositionExactlyWhen : Prop :=
  ∀ (s : State) (rec : Record), s.hasRoomFor rec.rotors.length = true →
    ∃ t, exec (.config rec) s = .next t ∧
      (t.err = .invalidPosition ↔ Record.WiringsValid rec ∧ ValidReflector rec.refl ∧
        ¬ ∀ r ∈ rec.rotors, ValidPosition r.pos)

/-- Which error is reported when several apply, and its `info` (43_construction.md R109): the first failing string in
the order of the rotors then the reflector; else the lowest failing index of the reflector; else the first failing
position. -/
def Obligations.ReportedErrorFollowsThePriority : Prop :=
  ∀ (s : State) (rec : Record), s.hasRoomFor rec.rotors.length = true →
    ∃ t, exec (.config rec) s = .next t ∧
      (∀ (k : Nat) (r : RotorCfg), rec.rotors[k]? = some r → ¬ ValidWiring r.wiring →
        (∀ j < k, ∀ q, rec.rotors[j]? = some q → ValidWiring q.wiring) →
        t.reports = s.reports ++ [.failed (.invalidWiring (.rotor k))]) ∧
      ((∀ r ∈ rec.rotors, ValidWiring r.wiring) → ¬ ValidWiring rec.refl →
        t.reports = s.reports ++ [.failed (.invalidWiring .reflector)]) ∧
      (∀ a : Sym, Record.WiringsValid rec → ReflectorFailsAt rec.refl a →
        (∀ b < a, ¬ ReflectorFailsAt rec.refl b) →
        t.reports = s.reports ++ [.failed (.invalidReflector a)]) ∧
      (∀ (k : Nat) (r : RotorCfg), Record.WiringsValid rec → ValidReflector rec.refl →
        rec.rotors[k]? = some r → ¬ ValidPosition r.pos →
        (∀ j < k, ∀ q, rec.rotors[j]? = some q → ValidPosition q.pos) →
        t.reports = s.reports ++ [.failed (.invalidPosition k)])

/-- What raising an error does (60_exceptions.md R126, 43_construction.md R111): CONFIG of a record that fails a check
completes; MODE is UNCONFIGURED, ERR the error's code, the error is reported, what was emitted before stays, and every
CHAR that follows is refused. Nothing is said of the contents. -/
def Obligations.FailedConfigRaises : Prop :=
  ∀ (s : State) (rec : Record), s.hasRoomFor rec.rotors.length = true → ¬ Record.Valid rec →
    ∃ t e, exec (.config rec) s = .next t ∧ t.mode = .unconfigured ∧ t.err = e.err ∧ t.err ≠ .none ∧
      t.reports = s.reports ++ [.failed e] ∧ t.outbox = s.outbox ∧ t.inbox = s.inbox ∧ t.nMax = s.nMax ∧
      t.ret = none ∧ ∀ c, exec (.char c) t = .refused .unconfigured

/-- The outcome of CONFIG depends on the record alone (43_construction.md R105), and so does the machine it builds
(R110). -/
def Obligations.ConfigReadsTheRecordAlone : Prop :=
  ∀ (s u : State) (rec : Record), s.hasRoomFor rec.rotors.length = true → u.hasRoomFor rec.rotors.length = true →
    ∃ t v o, exec (.config rec) s = .next t ∧ exec (.config rec) u = .next v ∧
      t.mode = v.mode ∧ t.err = v.err ∧ t.reports = s.reports ++ [o] ∧ v.reports = u.reports ++ [o] ∧
      (t.mode = .ready → Matched t v)

/-- A record of more rotors than the instance has room for cannot be presented: refused by name
(43_construction.md R114, log 3). -/
def Obligations.TooLongRecordRefused : Prop :=
  ∀ (s : State) (rec : Record) (m : Nat), s.nMax = some m → m < rec.rotors.length →
    exec (.config rec) s = .refused .recordTooLong

/-- Configuring again with the same record (43_construction.md R113, 70_reset_and_hazards.md R141): it brings back the
tables and positions of the first time, after any message; and what was enciphered in between is deciphered by the
machine so restored, up to the case of letters (42_signal_path.md R96). -/
def Obligations.SameRecordDeciphers : Prop :=
  ∀ (s : State) (rec : Record) (m : List CharW), s.hasRoomFor rec.rotors.length = true → Record.Valid rec →
    ∃ a x b y m', exec (.config rec) s = .next a ∧ process m a = .next x ∧ x.outbox = a.outbox ++ m' ∧
      exec (.config rec) x = .next b ∧ Matched a b ∧
      process m' b = .next y ∧ y.outbox = b.outbox ++ m.map capitalForm

/-! ## Frames over all operations -/

/-- The transitions of MODE (60_exceptions.md R130): CONFIG leaves READY exactly when it leaves ERR 0; no other
operation completes but in READY, and none leaves it. -/
def Obligations.ModeTransitions : Prop :=
  ∀ (s t : State) (i : Instr), exec i s = .next t →
    ((∃ rec, i = .config rec) → (t.mode = .ready ↔ t.err = .none)) ∧
    ((∀ rec, i ≠ .config rec) → s.mode = .ready ∧ t.mode = .ready)

/-- Only CONFIG writes a table, N, MODE, ERR or a report (10_state.md R13 to R17, 20_memory.md R33): every other
operation leaves them, and what the host presents, as they were. -/
def Obligations.OnlyConfigWritesTablesAndStatus : Prop :=
  ∀ (s t : State) (i : Instr), (∀ rec, i ≠ .config rec) → exec i s = .next t →
    t.rotors.map Rotor.wiring = s.rotors.map Rotor.wiring ∧ t.refl = s.refl ∧ t.mode = s.mode ∧ t.err = s.err ∧
    t.reports = s.reports ∧ t.inbox = s.inbox ∧ t.nMax = s.nMax ∧ t.draws = s.draws

/-- Positions change only by stepping (10_state.md R12): no operation but CONFIG moves a position by anything but one
step, and PASS, BYPASS, FWD, BWD, REFL and CHAR of a non-letter move none. -/
def Obligations.PositionsChangeOnlyByStepping : Prop :=
  (∀ (s t : State) (i : Instr) (k : Nat) (p : Sym), (∀ rec, i ≠ .config rec) → exec i s = .next t →
    s.pos k = some p → t.pos k = some p ∨ t.pos k = some (mod26 (p.val + 1))) ∧
  (∀ (s t : State) (k : Nat) (x : Sym) (c : CharW),
    (exec (.pass c) s = .next t ∨ exec (.bypass c) s = .next t ∨ exec (.fwd k x) s = .next t ∨
      exec (.bwd k x) s = .next t ∨ exec (.refl x) s = .next t ∨
      (symOfChar c = none ∧ exec (.char c) s = .next t)) → t.rotors = s.rotors)

/-- Only CHAR emits, and exactly one character (20_memory.md R41). -/
def Obligations.OnlyCharEmitsAndOnlyOne : Prop :=
  ∀ (s t : State) (i : Instr), exec i s = .next t →
    (∃ c d, i = .char c ∧ t.outbox = s.outbox ++ [d]) ∨ ((∀ c, i ≠ .char c) ∧ t.outbox = s.outbox)
end

