-- ==== Sys2Proof/Laws/Decode.lean ====
section
/-! SUPPORT. What classification, symbol words and decoding can answer, said once. -/

namespace Sys2Proof

theorem classify_capital_iff (c : CharW) (i : Sym) :
    classify c = .capital i ↔ c.toNat = 0x41 + i.val := by
  unfold classify
  split_ifs with h₁ h₂ <;> simp only [CharClass.capital.injEq, Fin.ext_iff, false_iff] <;> omega

theorem classify_small_iff (c : CharW) (i : Sym) :
    classify c = .small i ↔ c.toNat = 0x61 + i.val := by
  unfold classify
  split_ifs with h₁ h₂ <;> simp only [CharClass.small.injEq, Fin.ext_iff, false_iff] <;> omega

/-- A character carries symbol `i` exactly when it is the capital or the small letter number `i`. -/
theorem symOfChar_eq_some_iff (c : CharW) (i : Sym) :
    symOfChar c = some i ↔ c.toNat = 0x41 + i.val ∨ c.toNat = 0x61 + i.val := by
  rw [← classify_capital_iff, ← classify_small_iff]
  unfold symOfChar CharClass.sym
  split <;> simp_all

theorem charOfSym_toNat (i : Sym) : (charOfSym i).toNat = 0x41 + i.val := by
  simp only [charOfSym, BitVec.toNat_ofNat]; omega

theorem smallOfSym_toNat (i : Sym) : (smallOfSym i).toNat = 0x61 + i.val := by
  simp only [smallOfSym, BitVec.toNat_ofNat]; omega

@[simp] theorem classify_charOfSym (i : Sym) : classify (charOfSym i) = .capital i :=
  (classify_capital_iff _ _).2 (charOfSym_toNat i)

@[simp] theorem classify_smallOfSym (i : Sym) : classify (smallOfSym i) = .small i :=
  (classify_small_iff _ _).2 (smallOfSym_toNat i)

@[simp] theorem symOfWord_wordOfSym (i : Sym) : symOfWord (wordOfSym i) = some i := by
  have h : (wordOfSym i).toNat = i.val := by simp only [wordOfSym, BitVec.toNat_ofNat]; omega
  simp [symOfWord, h]

theorem symOfWord_eq_none_iff (w : SymW) : symOfWord w = none ↔ 26 ≤ w.toNat := by
  unfold symOfWord; split_ifs <;> simp <;> omega

/-- A decoded character is ENC of a capital, ENC.L of a small letter, or PASS of neither. -/
theorem decodeChar_cases (c : CharW) :
    (∃ i, decodeChar c = .enc i ∧ c = charOfSym i) ∨ (∃ i, decodeChar c = .encL i ∧ c = smallOfSym i) ∨
      (decodeChar c = .pass c ∧ symOfChar c = none) := by
  unfold decodeChar symOfChar
  cases h : classify c with
  | capital i =>
    exact .inl ⟨i, rfl, BitVec.eq_of_toNat_eq (((classify_capital_iff c i).1 h).trans (charOfSym_toNat i).symm)⟩
  | small i =>
    exact .inr (.inl ⟨i, rfl, BitVec.eq_of_toNat_eq (((classify_small_iff c i).1 h).trans (smallOfSym_toNat i).symm)⟩)
  | notLetter => exact .inr (.inr ⟨rfl, rfl⟩)

/-- A decoded control word is BYPASS, or one of the three path selections on a symbol. -/
theorem decodeStage_cases {sel : BitVec 2} {k : Nat} {s : SymW} {c : CharW} {i : Instr}
    (h : decodeStage sel k s c = .ok i) :
    i = .bypass c ∨ ∃ x, symOfWord s = some x ∧ (i = .fwd k x ∨ i = .refl x ∨ i = .bwd k x) := by
  unfold decodeStage at h
  split at h
  · simp_all
  · split at h
    · rename_i x hx
      refine .inr ⟨x, hx, ?_⟩
      unfold decodeSelect at h
      split_ifs at h <;> simp_all
    · simp at h

end Sys2Proof
end

