-- ==== Sys2Proof/Laws/State.lean ====
section
/-! SUPPORT. One lemma per field per update of State, so that no proof unfolds a record update. -/

namespace Sys2Proof.Machine

@[simp] theorem State.setStatus_mode (s : State) (m : Mode) (e : Err) : (s.setStatus m e).mode = m := rfl
@[simp] theorem State.setStatus_err (s : State) (m : Mode) (e : Err) : (s.setStatus m e).err = e := rfl
@[simp] theorem State.setStatus_rotors (s : State) (m : Mode) (e : Err) : (s.setStatus m e).rotors = s.rotors := rfl
@[simp] theorem State.setStatus_refl (s : State) (m : Mode) (e : Err) : (s.setStatus m e).refl = s.refl := rfl
@[simp] theorem State.setStatus_nMax (s : State) (m : Mode) (e : Err) : (s.setStatus m e).nMax = s.nMax := rfl
@[simp] theorem State.setStatus_inbox (s : State) (m : Mode) (e : Err) : (s.setStatus m e).inbox = s.inbox := rfl
@[simp] theorem State.setStatus_outbox (s : State) (m : Mode) (e : Err) : (s.setStatus m e).outbox = s.outbox := rfl
@[simp] theorem State.setStatus_reports (s : State) (m : Mode) (e : Err) :
    (s.setStatus m e).reports = s.reports := rfl
@[simp] theorem State.setStatus_ret (s : State) (m : Mode) (e : Err) : (s.setStatus m e).ret = s.ret := rfl
@[simp] theorem State.setStatus_draws (s : State) (m : Mode) (e : Err) : (s.setStatus m e).draws = s.draws := rfl

@[simp] theorem State.stepAll_mode (s : State) : (s.stepAll).mode = s.mode := rfl
@[simp] theorem State.stepAll_err (s : State) : (s.stepAll).err = s.err := rfl
@[simp] theorem State.stepAll_rotors (s : State) : (s.stepAll).rotors = s.rotors.map Rotor.step := rfl
@[simp] theorem State.stepAll_refl (s : State) : (s.stepAll).refl = s.refl := rfl
@[simp] theorem State.stepAll_nMax (s : State) : (s.stepAll).nMax = s.nMax := rfl
@[simp] theorem State.stepAll_inbox (s : State) : (s.stepAll).inbox = s.inbox := rfl
@[simp] theorem State.stepAll_outbox (s : State) : (s.stepAll).outbox = s.outbox := rfl
@[simp] theorem State.stepAll_reports (s : State) : (s.stepAll).reports = s.reports := rfl
@[simp] theorem State.stepAll_ret (s : State) : (s.stepAll).ret = none := rfl
@[simp] theorem State.stepAll_draws (s : State) : (s.stepAll).draws = s.draws := rfl

@[simp] theorem State.stepRotor_mode (s : State) (k : Nat) (r : Rotor) : (s.stepRotor k r).mode = s.mode := rfl
@[simp] theorem State.stepRotor_err (s : State) (k : Nat) (r : Rotor) : (s.stepRotor k r).err = s.err := rfl
@[simp] theorem State.stepRotor_rotors (s : State) (k : Nat) (r : Rotor) :
    (s.stepRotor k r).rotors = s.rotors.set k (Rotor.step r) := rfl
@[simp] theorem State.stepRotor_refl (s : State) (k : Nat) (r : Rotor) : (s.stepRotor k r).refl = s.refl := rfl
@[simp] theorem State.stepRotor_nMax (s : State) (k : Nat) (r : Rotor) : (s.stepRotor k r).nMax = s.nMax := rfl
@[simp] theorem State.stepRotor_inbox (s : State) (k : Nat) (r : Rotor) : (s.stepRotor k r).inbox = s.inbox := rfl
@[simp] theorem State.stepRotor_outbox (s : State) (k : Nat) (r : Rotor) : (s.stepRotor k r).outbox = s.outbox := rfl
@[simp] theorem State.stepRotor_reports (s : State) (k : Nat) (r : Rotor) :
    (s.stepRotor k r).reports = s.reports := rfl
@[simp] theorem State.stepRotor_ret (s : State) (k : Nat) (r : Rotor) : (s.stepRotor k r).ret = none := rfl
@[simp] theorem State.stepRotor_draws (s : State) (k : Nat) (r : Rotor) : (s.stepRotor k r).draws = s.draws := rfl

@[simp] theorem State.returns_mode (s : State) (v : Ret) : (s.returns v).mode = s.mode := rfl
@[simp] theorem State.returns_err (s : State) (v : Ret) : (s.returns v).err = s.err := rfl
@[simp] theorem State.returns_rotors (s : State) (v : Ret) : (s.returns v).rotors = s.rotors := rfl
@[simp] theorem State.returns_refl (s : State) (v : Ret) : (s.returns v).refl = s.refl := rfl
@[simp] theorem State.returns_nMax (s : State) (v : Ret) : (s.returns v).nMax = s.nMax := rfl
@[simp] theorem State.returns_inbox (s : State) (v : Ret) : (s.returns v).inbox = s.inbox := rfl
@[simp] theorem State.returns_outbox (s : State) (v : Ret) : (s.returns v).outbox = s.outbox := rfl
@[simp] theorem State.returns_reports (s : State) (v : Ret) : (s.returns v).reports = s.reports := rfl
@[simp] theorem State.returns_ret (s : State) (v : Ret) : (s.returns v).ret = some v := rfl
@[simp] theorem State.returns_draws (s : State) (v : Ret) : (s.returns v).draws = s.draws := rfl

@[simp] theorem State.emit_mode (s : State) (c : CharW) : (s.emit c).mode = s.mode := rfl
@[simp] theorem State.emit_err (s : State) (c : CharW) : (s.emit c).err = s.err := rfl
@[simp] theorem State.emit_rotors (s : State) (c : CharW) : (s.emit c).rotors = s.rotors := rfl
@[simp] theorem State.emit_refl (s : State) (c : CharW) : (s.emit c).refl = s.refl := rfl
@[simp] theorem State.emit_nMax (s : State) (c : CharW) : (s.emit c).nMax = s.nMax := rfl
@[simp] theorem State.emit_inbox (s : State) (c : CharW) : (s.emit c).inbox = s.inbox := rfl
@[simp] theorem State.emit_outbox (s : State) (c : CharW) : (s.emit c).outbox = s.outbox ++ [c] := rfl
@[simp] theorem State.emit_reports (s : State) (c : CharW) : (s.emit c).reports = s.reports := rfl
@[simp] theorem State.emit_ret (s : State) (c : CharW) : (s.emit c).ret = none := rfl
@[simp] theorem State.emit_draws (s : State) (c : CharW) : (s.emit c).draws = s.draws := rfl

@[simp] theorem State.unspecify_mode (s : State) : (s.unspecify).mode = s.mode := rfl
@[simp] theorem State.unspecify_err (s : State) : (s.unspecify).err = s.err := rfl
@[simp] theorem State.unspecify_rotors (s : State) : (s.unspecify).rotors = Config.freeRotors s.draws := rfl
@[simp] theorem State.unspecify_refl (s : State) : (s.unspecify).refl = Config.freeRefl s.draws := rfl
@[simp] theorem State.unspecify_nMax (s : State) : (s.unspecify).nMax = s.nMax := rfl
@[simp] theorem State.unspecify_inbox (s : State) : (s.unspecify).inbox = s.inbox := rfl
@[simp] theorem State.unspecify_outbox (s : State) : (s.unspecify).outbox = s.outbox := rfl
@[simp] theorem State.unspecify_reports (s : State) : (s.unspecify).reports = s.reports := rfl
@[simp] theorem State.unspecify_ret (s : State) : (s.unspecify).ret = s.ret := rfl
@[simp] theorem State.unspecify_draws (s : State) : (s.unspecify).draws = s.draws + 1 := rfl

@[simp] theorem State.commit_mode (s : State) (rs : List Rotor) (U : Table) : (s.commit rs U).mode = .ready := rfl
@[simp] theorem State.commit_err (s : State) (rs : List Rotor) (U : Table) : (s.commit rs U).err = .none := rfl
@[simp] theorem State.commit_rotors (s : State) (rs : List Rotor) (U : Table) : (s.commit rs U).rotors = rs := rfl
@[simp] theorem State.commit_refl (s : State) (rs : List Rotor) (U : Table) : (s.commit rs U).refl = U := rfl
@[simp] theorem State.commit_nMax (s : State) (rs : List Rotor) (U : Table) : (s.commit rs U).nMax = s.nMax := rfl
@[simp] theorem State.commit_inbox (s : State) (rs : List Rotor) (U : Table) : (s.commit rs U).inbox = s.inbox := rfl
@[simp] theorem State.commit_outbox (s : State) (rs : List Rotor) (U : Table) :
    (s.commit rs U).outbox = s.outbox := rfl
@[simp] theorem State.commit_reports (s : State) (rs : List Rotor) (U : Table) :
    (s.commit rs U).reports = s.reports ++ [.success] := rfl
@[simp] theorem State.commit_ret (s : State) (rs : List Rotor) (U : Table) : (s.commit rs U).ret = none := rfl
@[simp] theorem State.commit_draws (s : State) (rs : List Rotor) (U : Table) : (s.commit rs U).draws = s.draws := rfl

@[simp] theorem State.raise_mode (s : State) (e : ConfigError) : (s.raise e).mode = .unconfigured := rfl
@[simp] theorem State.raise_err (s : State) (e : ConfigError) : (s.raise e).err = e.err := rfl
@[simp] theorem State.raise_rotors (s : State) (e : ConfigError) :
    (s.raise e).rotors = Config.freeRotors s.draws := rfl
@[simp] theorem State.raise_refl (s : State) (e : ConfigError) : (s.raise e).refl = Config.freeRefl s.draws := rfl
@[simp] theorem State.raise_nMax (s : State) (e : ConfigError) : (s.raise e).nMax = s.nMax := rfl
@[simp] theorem State.raise_inbox (s : State) (e : ConfigError) : (s.raise e).inbox = s.inbox := rfl
@[simp] theorem State.raise_outbox (s : State) (e : ConfigError) : (s.raise e).outbox = s.outbox := rfl
@[simp] theorem State.raise_reports (s : State) (e : ConfigError) :
    (s.raise e).reports = s.reports ++ [.failed e] := rfl
@[simp] theorem State.raise_ret (s : State) (e : ConfigError) : (s.raise e).ret = none := rfl
@[simp] theorem State.raise_draws (s : State) (e : ConfigError) : (s.raise e).draws = s.draws + 1 := rfl

@[simp] theorem State.resetEvent_mode (s : State) : (s.resetEvent).mode = .unconfigured := rfl
@[simp] theorem State.resetEvent_err (s : State) : (s.resetEvent).err = .none := rfl
@[simp] theorem State.resetEvent_rotors (s : State) : (s.resetEvent).rotors = Config.freeRotors s.draws := rfl
@[simp] theorem State.resetEvent_refl (s : State) : (s.resetEvent).refl = Config.freeRefl s.draws := rfl
@[simp] theorem State.resetEvent_nMax (s : State) : (s.resetEvent).nMax = s.nMax := rfl
@[simp] theorem State.resetEvent_inbox (s : State) : (s.resetEvent).inbox = s.inbox := rfl
@[simp] theorem State.resetEvent_outbox (s : State) : (s.resetEvent).outbox = s.outbox := rfl
@[simp] theorem State.resetEvent_reports (s : State) : (s.resetEvent).reports = s.reports := rfl
@[simp] theorem State.resetEvent_ret (s : State) : (s.resetEvent).ret = none := rfl
@[simp] theorem State.resetEvent_draws (s : State) : (s.resetEvent).draws = s.draws + 1 := rfl

@[simp] theorem State.present_mode (s : State) (e : Event) : (s.present e).mode = s.mode := rfl
@[simp] theorem State.present_err (s : State) (e : Event) : (s.present e).err = s.err := rfl
@[simp] theorem State.present_rotors (s : State) (e : Event) : (s.present e).rotors = s.rotors := rfl
@[simp] theorem State.present_refl (s : State) (e : Event) : (s.present e).refl = s.refl := rfl
@[simp] theorem State.present_nMax (s : State) (e : Event) : (s.present e).nMax = s.nMax := rfl
@[simp] theorem State.present_inbox (s : State) (e : Event) : (s.present e).inbox = e :: s.inbox := rfl
@[simp] theorem State.present_outbox (s : State) (e : Event) : (s.present e).outbox = s.outbox := rfl
@[simp] theorem State.present_reports (s : State) (e : Event) : (s.present e).reports = s.reports := rfl
@[simp] theorem State.present_ret (s : State) (e : Event) : (s.present e).ret = s.ret := rfl
@[simp] theorem State.present_draws (s : State) (e : Event) : (s.present e).draws = s.draws := rfl

@[simp] theorem State.stepAll_n (s : State) : s.stepAll.n = s.n := by simp [State.n]
@[simp] theorem State.stepRotor_n (s : State) (k : Nat) (r : Rotor) : (s.stepRotor k r).n = s.n := by simp [State.n]

end Sys2Proof.Machine
end

