-- ==== Sys2Proof/Laws/Ops.lean ====
section
/-! SUPPORT. What each shared operation can do, said once; callers cite these and do not unfold the operation. -/

namespace Sys2Proof.Machine

/-! ## Arithmetic -/

theorem mod26_val (v : Int) : ((mod26 v).val : Int) = v % 26 := by
  simp only [mod26]; omega

theorem mod26_eq_iff (v : Int) (x : Sym) : mod26 v = x ↔ (v - x.val) % 26 = 0 := by
  rw [Fin.ext_iff, ← Int.natCast_inj, mod26_val]; omega

@[simp] theorem mod26_cast (x : Sym) : mod26 (x.val : Int) = x := by
  rw [mod26_eq_iff]; omega

/-! ## Tables -/

/-- `tabFind` answers `j` exactly when `j` is the one index that holds the symbol. -/
theorem tabFind_eq_some_iff (T : Table) (x j : Sym) :
    tabFind T x = some j ↔ tabRead T j = x ∧ ∀ b, tabRead T b = x → b = j := by
  have mem (b : Sym) : b ∈ allSyms.filter (fun j => tabRead T j = x) ↔ tabRead T b = x := by
    simp [allSyms, List.mem_filter, List.mem_finRange]
  have nd : (allSyms.filter (fun j => tabRead T j = x)).Nodup :=
    (List.nodup_finRange 26).filter _
  unfold tabFind
  generalize allSyms.filter (fun j => tabRead T j = x) = l at mem nd
  match l with
  | [] => simpa using fun h => absurd h (by simpa using mem j)
  | [a] =>
    simp only [List.mem_singleton] at mem
    simp only [Option.some.injEq]
    exact ⟨fun h => h ▸ ⟨(mem a).1 rfl, fun b hb => (mem b).2 hb⟩, fun h => ((mem j).2 h.1).symm⟩
  | a :: b :: l =>
    simp only [reduceCtorEq, false_iff, not_and, not_forall]
    intro _
    have ha := (mem a).1 (by simp)
    have hb := (mem b).1 (by simp)
    by_cases h : a = j
    · exact ⟨b, hb, fun e => by simp [h, e] at nd⟩
    · exact ⟨a, ha, h⟩

theorem tabFind_of_perm {T : Table} (h : TableIsPerm T) (x : Sym) : ∃ j, tabFind T x = some j :=
  (h x).imp fun _ hj => (tabFind_eq_some_iff ..).2 hj

/-! ## Rotors -/

@[simp] theorem Rotor.step_wiring (r : Rotor) : (Rotor.step r).wiring = r.wiring := rfl
@[simp] theorem Rotor.step_pos (r : Rotor) : (Rotor.step r).pos = mod26 (r.pos.val + 1) := rfl

@[simp] theorem forwardPass_nil (x : Sym) : forwardPass [] x = x := rfl
@[simp] theorem forwardPass_cons (r : Rotor) (rs : List Rotor) (x : Sym) :
    forwardPass (r :: rs) x = Rotor.fwd r (forwardPass rs x) := rfl

/-- BWD of a rotor answers `y` exactly when the one index that holds the symbol, shifted back, is `y`. -/
theorem Rotor.bwd_eq_some_iff (r : Rotor) (x y : Sym) :
    Rotor.bwd r x = some y ↔ ∃ j, tabFind r.wiring x = some j ∧ mod26 ((j.val : Int) - r.pos.val) = y :=
  Option.map_eq_some_iff

/-- The backward pass of a stack answers exactly when each rotor's BWD does, in order. -/
theorem backwardPass_cons_eq_some_iff (r : Rotor) (rs : List Rotor) (x y : Sym) :
    backwardPass (r :: rs) x = some y ↔ ∃ z, Rotor.bwd r x = some z ∧ backwardPass rs z = some y := by
  simp only [backwardPass]; cases Rotor.bwd r x <;> simp

/-! ## Control: when a guarded operation completes -/

theorem State.whenReady_eq_next {s t : State} {k : Host.Outcome State Fault Refusal} :
    s.whenReady k = .next t ↔ s.mode = .ready ∧ k = .next t := by
  unfold State.whenReady; cases s.mode <;> simp

@[simp] theorem State.whenReady_ready {s : State} (h : s.mode = .ready) (k) : s.whenReady k = k := by
  simp [State.whenReady, h]

@[simp] theorem State.whenReady_unconfigured {s : State} (h : s.mode = .unconfigured) (k) :
    s.whenReady k = .refused .unconfigured := by
  simp [State.whenReady, h]

theorem State.withRotor_eq_next {s t : State} {k : Nat} {f} :
    s.withRotor k f = .next t ↔ ∃ r, s.rotors[k]? = some r ∧ f r = .next t := by
  unfold State.withRotor; cases s.rotors[k]? <;> simp

theorem found_eq_next {x : Option Sym} {f} {t : State} :
    found x f = .next t ↔ ∃ y, x = some y ∧ f y = .next t := by
  unfold found; cases x <;> simp

/-- ENC of a symbol completes exactly when the path at the stepped positions has a result. -/
theorem State.encipher_eq_next {s t : State} {i : Sym} {f} :
    s.encipher i f = .next t ↔
      ∃ y, signalPath (s.rotors.map Rotor.step) s.refl i = some y ∧ f s.stepAll y = .next t :=
  found_eq_next

/-- Taking an event: it is the head of the inbox, and nothing else changes. -/
theorem State.take_eq_some_iff {s t : State} {e : Event} :
    s.take = some (e, t) ↔ ∃ rest, s.inbox = e :: rest ∧ t = { s with inbox := rest } := by
  unfold State.take
  split <;> simp_all
  grind

/-- An instance has room for `n` rotors unless its capacity is a smaller number. -/
theorem State.hasRoomFor_iff (s : State) (n : Nat) : s.hasRoomFor n = true ↔ ∀ m, s.nMax = some m → n ≤ m := by
  unfold State.hasRoomFor; cases s.nMax <;> simp

theorem State.take_eq_none_iff {s : State} : s.take = none ↔ s.inbox = [] := by
  unfold State.take; split <;> simp_all

end Sys2Proof.Machine
end

