-- ==== Sys2Proof/Laws/Operands.lean ====
section
/-! SUPPORT. What the operand assembly and the checks of CONFIG answer, said once and in the words of the rules. -/

namespace Sys2Proof.Machine

/-- The symbols of a string: it has them exactly when each character is a letter, and they are those letters'. -/
theorem symsOf_eq_some_iff (w : WiringString) (is : List Sym) :
    symsOf w = some is ↔ w.map symOfChar = is.map some := by
  induction w generalizing is with
  | nil => cases is <;> simp [symsOf]
  | cons c w ih =>
    unfold symsOf
    cases hc : symOfChar c with
    | none => cases is <;> simp [hc]
    | some i =>
      cases hw : symsOf w with
      | none =>
        have no (js : List Sym) : w.map symOfChar ≠ js.map some := fun h => by simp [hw] at ih; exact ih js h
        cases is <;> simp [hc, no]
      | some js =>
        have := (ih js).1 hw
        cases is with
        | nil => simp [hc]
        | cons x xs =>
          simp [hc, this, List.map_inj_right]

theorem tableOfSyms_eq_some_iff (is : List Sym) (T : Table) :
    tableOfSyms is = some T ↔ T.toList = is := by
  unfold tableOfSyms
  split
  · rename_i h
    simp only [Option.some.injEq]
    constructor
    · rintro rfl; simp
    · rintro rfl; exact Vector.toArray_inj.1 (Array.toArray_toList)
  · rename_i h
    simp only [reduceCtorEq, false_iff]
    rintro rfl; simp at h

theorem tabRead_eq_getElem (T : Table) (a : Sym) : tabRead T a = T.toList[a.val]'(by simp) := by
  simp [tabRead, Vector.get]

/-- A string has a table exactly when it is 26 letters, all different, and the table's entries are those letters. -/
theorem permTable_eq_some_iff (w : WiringString) (T : Table) :
    permTable w = some T ↔ w.map symOfChar = T.toList.map some ∧ T.toList.Nodup := by
  unfold permTable
  cases h : symsOf w with
  | none =>
    simp only [reduceCtorEq, false_iff, not_and]
    intro h'
    rw [(symsOf_eq_some_iff w _).2 h'] at h
    simp at h
  | some is =>
    have h' := (symsOf_eq_some_iff w is).1 h
    rw [h', List.map_inj_right (fun _ _ => Option.some.inj)]
    by_cases nd : is.Nodup
    · simp only [nd, if_true, tableOfSyms_eq_some_iff]
      exact ⟨fun e => ⟨e.symm, e ▸ nd⟩, fun e => e.1.symm⟩
    · simp only [nd, if_false, reduceCtorEq, false_iff, not_and]
      rintro rfl; exact nd

theorem permTable_isSome_iff (w : WiringString) : (permTable w).isSome = true ↔ ValidWiring w := by
  rw [Option.isSome_iff_exists]
  constructor
  · rintro ⟨T, hT⟩
    obtain ⟨hm, nd⟩ := (permTable_eq_some_iff w T).1 hT
    refine ⟨by simpa using congrArg List.length hm, fun c hc => ?_, ?_⟩
    · have : symOfChar c ∈ T.toList.map some := hm ▸ List.mem_map_of_mem hc
      obtain ⟨x, -, hx⟩ := List.mem_map.1 this
      simp [← hx]
    · rw [hm]; exact nd.map (Option.some_injective _)
  · rintro ⟨hl, hs, nd⟩
    have hmap : w.map symOfChar = (w.filterMap symOfChar).map some := by
      clear hl nd
      induction w with
      | nil => rfl
      | cons c w ih =>
        obtain ⟨i, hi⟩ := Option.isSome_iff_exists.1 (hs c (by simp))
        simp [hi, ih fun c hc => hs c (by simp [hc])]
    have hlen : (w.filterMap symOfChar).length = 26 := by
      simpa [hl] using (congrArg List.length hmap).symm
    refine ⟨⟨(w.filterMap symOfChar).toArray, by simpa using hlen⟩, (permTable_eq_some_iff ..).2 ⟨?_, ?_⟩⟩
    · exact hmap
    · rw [hmap] at nd
      exact nd.of_map _

/-- A table without repetition is a permutation (10_state.md R13). -/
theorem tableIsPerm_of_nodup {T : Table} (nd : T.toList.Nodup) : TableIsPerm T := by
  have inj : Function.Injective (tabRead T) := fun a b h => by
    rw [tabRead_eq_getElem, tabRead_eq_getElem] at h
    exact Fin.ext ((nd.getElem_inj_iff).1 h)
  intro x
  obtain ⟨a, ha⟩ := (Finite.injective_iff_surjective.1 inj) x
  exact ⟨a, ha, fun b hb => inj (hb.trans ha.symm)⟩

theorem posOperand_eq_some_iff (p : Int) (x : Sym) : posOperand p = some x ↔ p = x.val := by
  unfold posOperand
  split_ifs with h
  · simp only [Option.some.injEq, Fin.ext_iff]; omega
  · simp only [false_iff]; omega

theorem posOperand_eq_none_iff (p : Int) : posOperand p = none ↔ ¬ ValidPosition p := by
  unfold posOperand; split_ifs with h <;> simp_all [ValidPosition]

/-- Check 1 on the rotors: all their tables, or the first string that has none. -/
theorem checkWirings_cases (k : Nat) (rs : List RotorCfg) :
    (∃ Ts, checkWirings k rs = .ok Ts ∧ rs.map (fun r => permTable r.wiring) = Ts.map some) ∨
    (∃ j r, checkWirings k rs = .error (.invalidWiring (.rotor (k + j))) ∧ rs[j]? = some r ∧
      permTable r.wiring = none ∧ ∀ i < j, ∀ q, rs[i]? = some q → (permTable q.wiring).isSome = true) := by
  induction rs generalizing k with
  | nil => exact .inl ⟨[], rfl, rfl⟩
  | cons r rs ih =>
    unfold checkWirings
    cases hr : permTable r.wiring with
    | none => exact .inr ⟨0, r, rfl, rfl, hr, fun i hi => absurd hi (by omega)⟩
    | some T =>
      obtain ⟨Ts, h, hm⟩ | ⟨j, q, h, hq, hn, hlt⟩ := ih (k + 1)
      · exact .inl ⟨T :: Ts, by simp [h], by simp [hr, hm]⟩
      · refine .inr ⟨j + 1, q, by rw [h, show k + 1 + j = k + (j + 1) by omega], by simpa using hq, hn, ?_⟩
        rintro (_ | i) hi q hq
        · obtain rfl : r = q := by simpa using hq
          simp [hr]
        · exact hlt i (by omega) q (by simpa using hq)

/-- Check 3: all the positions, or the first that is out of range. -/
theorem checkPositions_cases (k : Nat) (rs : List RotorCfg) :
    (∃ ps, checkPositions k rs = .ok ps ∧ rs.map RotorCfg.pos = ps.map (fun p : Sym => (p.val : Int))) ∨
    (∃ j r, checkPositions k rs = .error (.invalidPosition (k + j)) ∧ rs[j]? = some r ∧
      ¬ ValidPosition r.pos ∧ ∀ i < j, ∀ q, rs[i]? = some q → ValidPosition q.pos) := by
  induction rs generalizing k with
  | nil => exact .inl ⟨[], rfl, rfl⟩
  | cons r rs ih =>
    unfold checkPositions
    cases hr : posOperand r.pos with
    | none =>
      exact .inr ⟨0, r, rfl, rfl, (posOperand_eq_none_iff _).1 hr, fun i hi => absurd hi (by omega)⟩
    | some p =>
      have hp := (posOperand_eq_some_iff _ _).1 hr
      obtain ⟨ps, h, hm⟩ | ⟨j, q, h, hq, hn, hlt⟩ := ih (k + 1)
      · exact .inl ⟨p :: ps, by simp [h], by simp [hp, hm]⟩
      · refine .inr ⟨j + 1, q, by rw [h, show k + 1 + j = k + (j + 1) by omega], by simpa using hq, hn, ?_⟩
        rintro (_ | i) hi q hq
        · obtain rfl : r = q := by simpa using hq
          exact ⟨by omega, by omega⟩
        · exact hlt i (by omega) q (by simpa using hq)

/-- Check 2: the table is an involution without fixed point, or the lowest index that fails is named. -/
theorem checkReflector_cases (U : Table) :
    (checkReflector U = .ok () ∧ TableIsReflector U) ∨
    (∃ a, checkReflector U = .error (.invalidReflector a) ∧ reflFails U a = true ∧
      ∀ b < a, reflFails U b = false) := by
  unfold checkReflector
  cases h : allSyms.find? (reflFails U) with
  | none =>
    refine .inl ⟨rfl, fun a => ?_⟩
    have := List.find?_eq_none.1 h a (List.mem_finRange a)
    simpa [reflFails, not_or] using this
  | some a =>
    refine .inr ⟨a, rfl, List.find?_some h, fun b hb => ?_⟩
    obtain ⟨-, i, hi, ha, hlt⟩ := List.find?_eq_some_iff_getElem.1 h
    have hi' : i = a.val := by simpa [allSyms, Fin.ext_iff] using ha
    have := hlt b.val (hi' ▸ hb)
    simpa [allSyms] using this

/-- What the three checks answer, in their order (43_construction.md R109). -/
theorem judge_cases (rec : Record) :
    (∃ Ts U ps, judge rec = .ok (List.zipWith Rotor.mk Ts ps, U) ∧
      rec.rotors.map (fun r => permTable r.wiring) = Ts.map some ∧ permTable rec.refl = some U ∧
      TableIsReflector U ∧ rec.rotors.map RotorCfg.pos = ps.map (fun p : Sym => (p.val : Int))) ∨
    (∃ j r, judge rec = .error (.invalidWiring (.rotor j)) ∧ rec.rotors[j]? = some r ∧
      permTable r.wiring = none ∧ ∀ i < j, ∀ q, rec.rotors[i]? = some q → (permTable q.wiring).isSome = true) ∨
    ((∃ Ts, rec.rotors.map (fun r => permTable r.wiring) = List.map some Ts) ∧
      judge rec = .error (.invalidWiring .reflector) ∧ permTable rec.refl = none) ∨
    ((∃ Ts, rec.rotors.map (fun r => permTable r.wiring) = List.map some Ts) ∧
      ∃ U a, permTable rec.refl = some U ∧ judge rec = .error (.invalidReflector a) ∧ reflFails U a = true ∧
        ∀ b < a, reflFails U b = false) ∨
    ((∃ Ts, rec.rotors.map (fun r => permTable r.wiring) = List.map some Ts) ∧
      ∃ U j r, permTable rec.refl = some U ∧ TableIsReflector U ∧ judge rec = .error (.invalidPosition j) ∧
        rec.rotors[j]? = some r ∧ ¬ ValidPosition r.pos ∧
        ∀ i < j, ∀ q, rec.rotors[i]? = some q → ValidPosition q.pos) := by
  obtain ⟨Ts, h1, hT⟩ | ⟨j, r, h1, hr⟩ := checkWirings_cases 0 rec.rotors
  · cases hU : permTable rec.refl with
    | none => exact .inr (.inr (.inl ⟨⟨Ts, hT⟩, by simp [judge, h1, checkReflString, hU], rfl⟩))
    | some U =>
      obtain ⟨h2, hI⟩ | ⟨a, h2, ha⟩ := checkReflector_cases U
      · obtain ⟨ps, h3, hp⟩ | ⟨j, r, h3, hr⟩ := checkPositions_cases 0 rec.rotors
        · exact .inl ⟨Ts, U, ps, by simp [judge, h1, checkReflString, hU, h2, h3], hT, rfl, hI, hp⟩
        · exact .inr (.inr (.inr (.inr ⟨⟨Ts, hT⟩, U, j, r, rfl, hI,
            by simp [judge, h1, checkReflString, hU, h2, h3], hr⟩)))
      · exact .inr (.inr (.inr (.inl ⟨⟨Ts, hT⟩, U, a, rfl,
          by simp [judge, h1, checkReflString, hU, h2], ha⟩)))
  · exact .inr (.inl ⟨j, r, by simp [judge, h1], hr⟩)

end Sys2Proof.Machine
end

