-- ==== Sys2Proof/Laws/Exec.lean ====
section
/-! SUPPORT. One inversion lemma per meaning and one for the step: what a next state can be, said once. -/

namespace Sys2Proof.Machine

theorem execStepAll_eq_next {s t : State} : execStepAll s = .next t ↔ s.mode = .ready ∧ s.stepAll = t := by
  simp [execStepAll, State.whenReady_eq_next]

theorem execStep_eq_next {s t : State} {k : Nat} :
    execStep k s = .next t ↔ s.mode = .ready ∧ ∃ r, s.rotors[k]? = some r ∧ s.stepRotor k r = t := by
  simp [execStep, State.whenReady_eq_next, State.withRotor_eq_next]

theorem execFwd_eq_next {s t : State} {k : Nat} {i : Sym} :
    execFwd k i s = .next t ↔
      s.mode = .ready ∧ ∃ r, s.rotors[k]? = some r ∧ s.returns (.sym (Rotor.fwd r i)) = t := by
  simp [execFwd, State.whenReady_eq_next, State.withRotor_eq_next]

theorem execBwd_eq_next {s t : State} {k : Nat} {x : Sym} :
    execBwd k x s = .next t ↔ s.mode = .ready ∧
      ∃ r, s.rotors[k]? = some r ∧ ∃ y, Rotor.bwd r x = some y ∧ s.returns (.sym y) = t := by
  simp [execBwd, State.whenReady_eq_next, State.withRotor_eq_next, found_eq_next]

theorem execRefl_eq_next {s t : State} {x : Sym} :
    execRefl x s = .next t ↔ s.mode = .ready ∧ s.returns (.sym (tabRead s.refl x)) = t := by
  simp [execRefl, State.whenReady_eq_next]

theorem execEnc_eq_next {s t : State} {i : Sym} :
    execEnc i s = .next t ↔ s.mode = .ready ∧
      ∃ y, signalPath (s.rotors.map Rotor.step) s.refl i = some y ∧ s.stepAll.returns (.sym y) = t := by
  simp [execEnc, State.whenReady_eq_next, State.encipher_eq_next]

theorem execEncL_eq_next {s t : State} {i : Sym} :
    execEncL i s = .next t ↔ s.mode = .ready ∧
      ∃ y, signalPath (s.rotors.map Rotor.step) s.refl i = some y ∧ s.stepAll.returns (.sym y) = t := by
  simp [execEncL, State.whenReady_eq_next, State.encipher_eq_next]

theorem execPass_eq_next {s t : State} {c : CharW} :
    execPass c s = .next t ↔ s.mode = .ready ∧ symOfChar c = none ∧ s.returns (.chr c) = t := by
  unfold execPass
  rw [State.whenReady_eq_next]
  cases symOfChar c <;> simp

theorem execBypass_eq_next {s t : State} {c : CharW} :
    execBypass c s = .next t ↔ s.mode = .ready ∧ s.returns (.chr c) = t := by
  simp [execBypass, State.whenReady_eq_next]

theorem execChar_eq_next {s t : State} {c : CharW} :
    execChar c s = .next t ↔ s.mode = .ready ∧
      ((symOfChar c = none ∧ s.emit c = t) ∨
        ∃ i y, symOfChar c = some i ∧ signalPath (s.rotors.map Rotor.step) s.refl i = some y ∧
          s.stepAll.emit (charOfSym y) = t) := by
  unfold execChar
  rw [State.whenReady_eq_next]
  cases symOfChar c <;> simp [State.encipher_eq_next]

theorem execConfig_eq_next {s t : State} {rec : Record} :
    execConfig rec s = .next t ↔ s.hasRoomFor rec.rotors.length = true ∧
      ((∃ rs U, judge rec = .ok (rs, U) ∧ s.commit rs U = t) ∨ ∃ e, judge rec = .error e ∧ s.raise e = t) := by
  unfold execConfig
  rcases judge rec with e | ⟨rs, U⟩ <;> cases s.hasRoomFor rec.rotors.length <;> simp

/-- A message completes exactly when its first CHAR does and the rest does from there. -/
theorem process_cons_eq_next {s t : State} {c : CharW} {m : List CharW} :
    process (c :: m) s = .next t ↔ ∃ u, execChar c s = .next u ∧ process m u = .next t := by
  simp only [process]; cases execChar c s <;> simp

/-- A sequence completes exactly when its first operation does and the rest does from there. -/
theorem execAll_cons_eq_next {s t : State} {i : Instr} {is : List Instr} :
    execAll (i :: is) s = .next t ↔ ∃ u, exec i s = .next u ∧ execAll is u = .next t := by
  simp only [execAll]; cases exec i s <;> simp

/-- What a completed step is: idling, the reset event, or a decoded operation on the state with its words taken. -/
theorem step_cases {s t : State} (h : step s = .next t) :
    (s.inbox = [] ∧ t = s) ∨
    (∃ rest, s.inbox = .reset :: rest ∧ t = State.resetEvent { s with inbox := rest }) ∨
    (∃ raw rest i, s.inbox = .op raw :: rest ∧ decode raw = .ok i ∧ exec i { s with inbox := rest } = .next t) := by
  unfold step at h
  split at h
  · rename_i ht
    exact .inl ⟨State.take_eq_none_iff.1 ht, by simpa using h.symm⟩
  · rename_i u ht
    obtain ⟨rest, hi, rfl⟩ := State.take_eq_some_iff.1 ht
    exact .inr (.inl ⟨rest, hi, by simpa using h.symm⟩)
  · rename_i raw u ht
    obtain ⟨rest, hi, rfl⟩ := State.take_eq_some_iff.1 ht
    split at h
    · rename_i i hd
      exact .inr (.inr ⟨raw, rest, i, hi, hd, h⟩)
    · simp at h

/-- On a READY state, and for a CONFIG, placing a table word changes the inbox alone. -/
theorem withFetchWord_ready {s : State} (h : s.mode = .ready) (nbits w : Nat) :
    s.withFetchWord nbits w = s.present (.op (tableRaw nbits w)) := by
  unfold State.withFetchWord State.bootFor
  split <;> simp [h]

end Sys2Proof.Machine
end

