-- ==== Sys2Proof/Machine/Instance.lean ====
section
/-! DEFINITION. The block as an instance of a given capacity `N_MAX` (00_scope.md R5, U12): the argument claims about
runs from reset quantify over. -/

namespace Sys2Proof.Machine

/-- The machine of capacity `nMax`; `none` is unbounded. `Sys2Proof.core` is this machine at `Config.nMaxAtReset`. -/
def coreFor (nMax : Option Nat) : Host.Core :=
  { State := State, Fault := Fault, Refusal := Refusal, step := step, reset := State.resetFor nMax }

/-- The same state in an instance of another capacity. -/
def State.ofCapacity (s : State) (nMax : Option Nat) : State := { s with nMax := nMax }

end Sys2Proof.Machine
end

