-- ==== Sys2Proof/Laws/Instance.lean ====
section
/-! SUPPORT. What the capacity of an instance can change, said once: a record too long is refused, and nothing else.
So whatever an instance of any capacity does from reset, the unbounded one does too (log 3). -/

namespace Sys2Proof.Machine

/-- The host's machine is the instance of capacity `Config.nMaxAtReset`. -/
theorem coreFor_nMaxAtReset : coreFor Config.nMaxAtReset = Sys2Proof.core := rfl

@[simp] theorem State.resetFor_nMax (nMax : Option Nat) : (State.resetFor nMax).nMax = nMax := rfl
@[simp] theorem State.resetFor_mode (nMax : Option Nat) : (State.resetFor nMax).mode = .unconfigured := rfl
@[simp] theorem State.resetFor_err (nMax : Option Nat) : (State.resetFor nMax).err = .none := rfl
@[simp] theorem State.resetFor_ret (nMax : Option Nat) : (State.resetFor nMax).ret = none := rfl
@[simp] theorem State.resetFor_inbox (nMax : Option Nat) : (State.resetFor nMax).inbox = [] := rfl

@[simp] theorem State.ofCapacity_mode (s : State) (n : Option Nat) : (s.ofCapacity n).mode = s.mode := rfl
@[simp] theorem State.ofCapacity_err (s : State) (n : Option Nat) : (s.ofCapacity n).err = s.err := rfl
@[simp] theorem State.ofCapacity_rotors (s : State) (n : Option Nat) : (s.ofCapacity n).rotors = s.rotors := rfl
@[simp] theorem State.ofCapacity_refl (s : State) (n : Option Nat) : (s.ofCapacity n).refl = s.refl := rfl
@[simp] theorem State.ofCapacity_nMax (s : State) (n : Option Nat) : (s.ofCapacity n).nMax = n := rfl
@[simp] theorem State.ofCapacity_inbox (s : State) (n : Option Nat) : (s.ofCapacity n).inbox = s.inbox := rfl
@[simp] theorem State.ofCapacity_outbox (s : State) (n : Option Nat) : (s.ofCapacity n).outbox = s.outbox := rfl
@[simp] theorem State.ofCapacity_reports (s : State) (n : Option Nat) : (s.ofCapacity n).reports = s.reports := rfl
@[simp] theorem State.ofCapacity_ret (s : State) (n : Option Nat) : (s.ofCapacity n).ret = s.ret := rfl
@[simp] theorem State.ofCapacity_draws (s : State) (n : Option Nat) : (s.ofCapacity n).draws = s.draws := rfl

/-- An operation that completes in an instance of some capacity completes alike in the unbounded one. -/
theorem exec_unbounded {s t : State} {i : Instr} (h : exec i s = .next t) :
    exec i (s.ofCapacity none) = .next (t.ofCapacity none) := by
  cases i with
  | config rec =>
    obtain ⟨-, ⟨rs, U, hj, rfl⟩ | ⟨e, hj, rfl⟩⟩ := execConfig_eq_next.1 h
    · exact execConfig_eq_next.2 ⟨rfl, .inl ⟨rs, U, hj, rfl⟩⟩
    · exact execConfig_eq_next.2 ⟨rfl, .inr ⟨e, hj, rfl⟩⟩
  | char c =>
    obtain ⟨hm, ⟨hc, rfl⟩ | ⟨i, y, hc, hy, rfl⟩⟩ := execChar_eq_next.1 h
    · exact execChar_eq_next.2 ⟨hm, .inl ⟨hc, rfl⟩⟩
    · exact execChar_eq_next.2 ⟨hm, .inr ⟨i, y, hc, hy, rfl⟩⟩
  | enc i => obtain ⟨hm, y, hy, rfl⟩ := execEnc_eq_next.1 h; exact execEnc_eq_next.2 ⟨hm, y, hy, rfl⟩
  | encL i => obtain ⟨hm, y, hy, rfl⟩ := execEncL_eq_next.1 h; exact execEncL_eq_next.2 ⟨hm, y, hy, rfl⟩
  | pass c => obtain ⟨hm, hc, rfl⟩ := execPass_eq_next.1 h; exact execPass_eq_next.2 ⟨hm, hc, rfl⟩
  | stepAll => obtain ⟨hm, rfl⟩ := execStepAll_eq_next.1 h; exact execStepAll_eq_next.2 ⟨hm, rfl⟩
  | step k => obtain ⟨hm, r, hr, rfl⟩ := execStep_eq_next.1 h; exact execStep_eq_next.2 ⟨hm, r, hr, rfl⟩
  | fwd k i => obtain ⟨hm, r, hr, rfl⟩ := execFwd_eq_next.1 h; exact execFwd_eq_next.2 ⟨hm, r, hr, rfl⟩
  | refl x => obtain ⟨hm, rfl⟩ := execRefl_eq_next.1 h; exact execRefl_eq_next.2 ⟨hm, rfl⟩
  | bwd k x => obtain ⟨hm, r, hr, y, hy, rfl⟩ := execBwd_eq_next.1 h; exact execBwd_eq_next.2 ⟨hm, r, hr, y, hy, rfl⟩
  | bypass c => obtain ⟨hm, rfl⟩ := execBypass_eq_next.1 h; exact execBypass_eq_next.2 ⟨hm, rfl⟩

/-- So does a step. -/
theorem step_unbounded {s t : State} (h : step s = .next t) :
    step (s.ofCapacity none) = .next (t.ofCapacity none) := by
  obtain ⟨hi, rfl⟩ | ⟨rest, hi, rfl⟩ | ⟨raw, rest, i, hi, hd, hx⟩ := step_cases h
  · simp [step, State.take, hi]
  · simp only [step, State.take, State.ofCapacity_inbox, hi]; rfl
  · simp only [step, State.take, State.ofCapacity_inbox, hi, hd]; exact exec_unbounded hx

/-- A run of one step and more, of an instance of any capacity. -/
theorem coreFor_run_succ (nMax : Option Nat) (k : Nat) (s : State) :
    (coreFor nMax).run (k + 1) s = match step s with
      | .next u => (coreFor nMax).run k u
      | .fault r => .fault r
      | .refused r => .refused r := by
  cases h : step s <;> simp [Host.Core.run, show (coreFor nMax).step s = _ from h]

/-- Every run of an instance of any capacity, from reset among others, is but for the capacity a run of the unbounded
one. -/
theorem run_unbounded (nMax : Option Nat) (k : Nat) {s t : State} (h : (coreFor nMax).run k s = .next t) :
    (coreFor none).run k (s.ofCapacity none) = .next (t.ofCapacity none) := by
  induction k generalizing s with
  | zero =>
    have h : Host.Outcome.next s = .next t := h
    cases h; rfl
  | succ k ih =>
    rw [coreFor_run_succ] at h ⊢
    cases hs : step s with
    | next u => rw [hs] at h; rw [step_unbounded hs]; exact ih h
    | fault r => cases r
    | refused r => rw [hs] at h; cases h

end Sys2Proof.Machine
end

