-- ==== Sys2Proof/Laws/PerInstr.lean ====
section
/-! SUPPORT. Statements about every operation as syntax, one lemma per constructor. -/

/-- Whatever words decode to the operation, it is well formed. -/
def Sys2Proof.Laws.Decoded.Statement (i : Sys2Proof.Instr) : Prop :=
  ∀ raw, Sys2Proof.decode raw = .ok i → i.wellFormed = true

/-- The words of the well-formed operation match its row of spec/opcode_table.json: they fit its width, and the bits
under its mask are its `match`. -/
def Sys2Proof.Laws.Opcode.Statement (i : Sys2Proof.Instr) : Prop :=
  i.wellFormed = true →
    (Sys2Proof.encode i).tableBits < 2 ^ i.pattern.width ∧
      (Sys2Proof.encode i).tableBits &&& i.pattern.mask = i.pattern.value

namespace Sys2Proof.Laws

open Sys2Proof

theorem Decoded.config (rec : Record) : Decoded.Statement (.config rec) := fun _ _ => rfl
theorem Decoded.char (c : CharW) : Decoded.Statement (.char c) := fun _ _ => rfl
theorem Decoded.enc (i : Sym) : Decoded.Statement (.enc i) := fun _ _ => rfl
theorem Decoded.encL (i : Sym) : Decoded.Statement (.encL i) := fun _ _ => rfl
theorem Decoded.stepAll : Decoded.Statement .stepAll := fun _ _ => rfl
theorem Decoded.step (k : Nat) : Decoded.Statement (.step k) := fun _ _ => rfl
theorem Decoded.fwd (k : Nat) (i : Sym) : Decoded.Statement (.fwd k i) := fun _ _ => rfl
theorem Decoded.refl (s : Sym) : Decoded.Statement (.refl s) := fun _ _ => rfl
theorem Decoded.bwd (k : Nat) (s : Sym) : Decoded.Statement (.bwd k s) := fun _ _ => rfl
theorem Decoded.bypass (c : CharW) : Decoded.Statement (.bypass c) := fun _ _ => rfl

theorem Decoded.pass (c : CharW) : Decoded.Statement (.pass c) := by
  intro raw h
  cases raw with
  | transaction cmd c' rec => simp only [decode] at h; split at h <;> simp at h
  | character c' =>
    simp only [decode, Except.ok.injEq] at h
    obtain ⟨i, hd, -⟩ | ⟨i, hd, -⟩ | ⟨hd, hn⟩ := decodeChar_cases c' <;> rw [hd] at h <;> simp at h
    subst h; simp [Instr.wellFormed, hn]
  | stage sel k s c' =>
    obtain h | ⟨x, -, h | h | h⟩ := decodeStage_cases (h : decodeStage sel k s c' = _) <;> simp at h
  | stepping k => cases k <;> simp [decode] at h

theorem Opcode.config (rec : Record) : Opcode.Statement (.config rec) := fun _ =>
  ⟨show 1 < 2 ^ 1 by decide, show 1 &&& 1 = 1 by decide⟩
theorem Opcode.stepAll : Opcode.Statement .stepAll := fun _ => by decide
theorem Opcode.step (k : Nat) : Opcode.Statement (.step k) := fun _ =>
  ⟨show 0 < 2 ^ 0 by decide, show 0 &&& 0 = 0 by decide⟩
theorem Opcode.fwd (k : Nat) (i : Sym) : Opcode.Statement (.fwd k i) := fun _ =>
  ⟨show 0 < 2 ^ 2 by decide, show 0 &&& 3 = 0 by decide⟩
theorem Opcode.refl (s : Sym) : Opcode.Statement (.refl s) := fun _ =>
  ⟨show 1 < 2 ^ 2 by decide, show 1 &&& 3 = 1 by decide⟩
theorem Opcode.bwd (k : Nat) (s : Sym) : Opcode.Statement (.bwd k s) := fun _ =>
  ⟨show 2 < 2 ^ 2 by decide, show 2 &&& 3 = 2 by decide⟩
theorem Opcode.bypass (c : CharW) : Opcode.Statement (.bypass c) := fun _ =>
  ⟨show 3 < 2 ^ 2 by decide, show 3 &&& 3 = 3 by decide⟩
theorem Opcode.enc (i : Sym) : Opcode.Statement (.enc i) := fun _ => by revert i; decide
theorem Opcode.encL (i : Sym) : Opcode.Statement (.encL i) := fun _ => by revert i; decide

theorem Opcode.pass (c : CharW) : Opcode.Statement (.pass c) :=
  fun _ => ⟨c.isLt, Nat.and_zero _⟩

theorem Opcode.char (c : CharW) : Opcode.Statement (.char c) := by
  intro _
  have h := c.isLt
  refine ⟨show c.toNat < 2 ^ 9 by omega, show c.toNat &&& 2 ^ 8 = 0 from ?_⟩
  rw [Nat.and_two_pow, Nat.testBit_lt_two_pow h]; rfl

end Sys2Proof.Laws
end

