-- ==== Sys2Proof/Text.lean ====
section
/-! DEFINITION. The textual form of operations (30_encoding.md R58), as lists of characters. The rule gives none for
ENC, ENC.L, PASS and BYPASS, which a text names by the CHAR that decodes to them. -/

namespace Sys2Proof

/-- The hexadecimal digit of a number below 16. -/
def hexDigit (n : Nat) : Char := if n < 10 then Char.ofNat (0x30 + n) else Char.ofNat (0x37 + n)

/-- A character word as the character of that code. -/
def CharW.char (c : CharW) : Char := Char.ofNat c.toNat

/-- A natural number in decimal. -/
def decText (n : Nat) : List Char := Nat.toDigits 10 n

/-- An integer in decimal. -/
def intText (p : Int) : List Char :=
  match p with
  | .ofNat n => decText n
  | .negSucc n => '-' :: decText (n + 1)

/-- The operand of CHAR: the character between quotes, or `0x` and two digits for a code with no printable form. That
the printable codes are 0x20 to 0x7E is R60's chart. -/
def charText (c : CharW) : List Char :=
  if 0x20 ≤ c.toNat ∧ c.toNat ≤ 0x7E then ['\'', CharW.char c, '\'']
  else ['0', 'x', hexDigit (c.toNat / 16), hexDigit (c.toNat % 16)]

/-- A wiring string: its characters without quotes. -/
def wiringText (w : WiringString) : List Char := w.map CharW.char

/-- The elements of a rotor list, separated by a comma and a space. -/
def rotorsText : List RotorCfg → List Char
  | [] => []
  | [r] => ['('] ++ wiringText r.wiring ++ [',', ' '] ++ intText r.pos ++ [')']
  | r :: rs => ['('] ++ wiringText r.wiring ++ [',', ' '] ++ intText r.pos ++ [')', ',', ' '] ++ rotorsText rs

/-- The text of an operation (30_encoding.md R58), symbols as decimal indices. -/
def Instr.text : Instr → Option (List Char)
  | .config rec => some (['C', 'O', 'N', 'F', 'I', 'G', ' ', 'r', 'o', 't', 'o', 'r', 's', '=', '['] ++
      rotorsText rec.rotors ++ [']', ' ', 'r', 'e', 'f', 'l', 'e', 'c', 't', 'o', 'r', '='] ++ wiringText rec.refl)
  | .char c => some (['C', 'H', 'A', 'R', ' '] ++ charText c)
  | .enc _ => none
  | .encL _ => none
  | .pass _ => none
  | .stepAll => some ['S', 'T', 'E', 'P', 'A', 'L', 'L']
  | .step k => some (['S', 'T', 'E', 'P', ' '] ++ decText k)
  | .fwd k i => some (['F', 'W', 'D', ' '] ++ decText k ++ [',', ' '] ++ decText i.val)
  | .refl s => some (['R', 'E', 'F', 'L', ' '] ++ decText s.val)
  | .bwd k s => some (['B', 'W', 'D', ' '] ++ decText k ++ [',', ' '] ++ decText s.val)
  | .bypass _ => none

/-- The text of PROCESS (30_encoding.md R58); the other pseudo-operations are named in R59 with no text of their own. -/
def processText (m : List CharW) : List Char :=
  ['P', 'R', 'O', 'C', 'E', 'S', 'S', ' ', '"'] ++ m.map CharW.char ++ ['"']

end Sys2Proof
end

