-- ==== Sys2Proof/Tests/Slice0.lean ====
section
/-! SUPPORT. The model's own tests. Expected results are those of spec/95_test_vectors.md and of the examples in the
rules, written out by hand; then one witness for each statement that has hypotheses. -/

namespace Sys2Proof.Tests

open Sys2Proof Sys2Proof.Machine

/-- The wiring string I (95_test_vectors.md section 2), in ASCII. -/
def strI : WiringString :=
  [0x45, 0x4B, 0x4D, 0x46, 0x4C, 0x47, 0x44, 0x51, 0x56, 0x5A, 0x4E, 0x54, 0x4F, 0x57,
    0x59, 0x48, 0x58, 0x55, 0x53, 0x50, 0x41, 0x49, 0x42, 0x52, 0x43, 0x4A]

/-- The wiring string II (95_test_vectors.md section 2), in ASCII. -/
def strII : WiringString :=
  [0x41, 0x4A, 0x44, 0x4B, 0x53, 0x49, 0x52, 0x55, 0x58, 0x42, 0x4C, 0x48, 0x57, 0x54,
    0x4D, 0x43, 0x51, 0x47, 0x5A, 0x4E, 0x50, 0x59, 0x46, 0x56, 0x4F, 0x45]

/-- The wiring string III (95_test_vectors.md section 2), in ASCII. -/
def strIII : WiringString :=
  [0x42, 0x44, 0x46, 0x48, 0x4A, 0x4C, 0x43, 0x50, 0x52, 0x54, 0x58, 0x56, 0x5A, 0x4E,
    0x59, 0x45, 0x49, 0x57, 0x47, 0x41, 0x4B, 0x4D, 0x55, 0x53, 0x51, 0x4F]

/-- The wiring string BH (95_test_vectors.md section 2), in ASCII. -/
def strBH : WiringString :=
  [0x59, 0x52, 0x55, 0x48, 0x51, 0x53, 0x4C, 0x44, 0x50, 0x58, 0x4E, 0x47, 0x4F, 0x4B,
    0x4D, 0x49, 0x45, 0x42, 0x46, 0x5A, 0x43, 0x57, 0x56, 0x4A, 0x41, 0x54]

/-- The wiring string AT (95_test_vectors.md section 2), in ASCII. -/
def strAT : WiringString :=
  [0x5A, 0x59, 0x58, 0x57, 0x56, 0x55, 0x54, 0x53, 0x52, 0x51, 0x50, 0x4F, 0x4E, 0x4D,
    0x4C, 0x4B, 0x4A, 0x49, 0x48, 0x47, 0x46, 0x45, 0x44, 0x43, 0x42, 0x41]

/-- The source's own reflector string, which is no involution (95_test_vectors.md section 1). -/
def strSrc : WiringString :=
  [0x59, 0x52, 0x55, 0x48, 0x51, 0x53, 0x4C, 0x44, 0x50, 0x58, 0x4E, 0x47, 0x4F, 0x4B,
    0x49, 0x45, 0x54, 0x5A, 0x4A, 0x57, 0x56, 0x46, 0x4D, 0x43, 0x42, 0x41]

/-- The table of I (95_test_vectors.md section 2). -/
def tabI : Table :=
  ⟨#[4, 10, 12, 5, 11, 6, 3, 16, 21, 25, 13, 19, 14, 22, 24, 7, 23, 20, 18, 15, 0, 8, 1, 17, 2, 9], rfl⟩

/-- The table of II (95_test_vectors.md section 2). -/
def tabII : Table :=
  ⟨#[0, 9, 3, 10, 18, 8, 17, 20, 23, 1, 11, 7, 22, 19, 12, 2, 16, 6, 25, 13, 15, 24, 5, 21, 14, 4], rfl⟩

/-- The table of III (95_test_vectors.md section 2). -/
def tabIII : Table :=
  ⟨#[1, 3, 5, 7, 9, 11, 2, 15, 17, 19, 23, 21, 25, 13, 24, 4, 8, 22, 6, 0, 10, 12, 20, 18, 16, 14], rfl⟩

/-- The table of BH (95_test_vectors.md section 2). -/
def tabBH : Table :=
  ⟨#[24, 17, 20, 7, 16, 18, 11, 3, 15, 23, 13, 6, 14, 10, 12, 8, 4, 1, 5, 25, 2, 22, 21, 9, 0, 19], rfl⟩

/-- A READY state with these tables and positions, nothing presented and nothing emitted. -/
def ready (rs : List Rotor) (U : Table) : State where
  mode := .ready
  err := .none
  rotors := rs
  refl := U
  nMax := none
  inbox := []
  outbox := []
  reports := []
  ret := none
  draws := 1

/-- The standard machine at positions `p0, p1, p2` (95_test_vectors.md section 2). -/
def std (p0 p1 p2 : Sym) : State := ready [⟨tabI, p0⟩, ⟨tabII, p1⟩, ⟨tabIII, p2⟩] tabBH

/-- An UNCONFIGURED state. -/
def blank : State := { ready [] tabBH with mode := .unconfigured }

/-- The machine `rotors=[(I, p)] reflector=BH`. -/
def one (p : Sym) : State := ready [⟨tabI, p⟩] tabBH

/-- The next state, if there is one. -/
def next? (o : Host.Outcome State Fault Refusal) : Option State :=
  match o with
  | .next s => some s
  | _ => none

/-- The reason of a refusal, if there is one. -/
def refusal? (o : Host.Outcome State Fault Refusal) : Option Refusal :=
  match o with
  | .refused r => some r
  | _ => none

/-- The positions after an operation. -/
def positions (o : Host.Outcome State Fault Refusal) : Option (List Sym) :=
  (next? o).map fun s => s.rotors.map Rotor.pos

/-- The value an operation returns. -/
def returned (o : Host.Outcome State Fault Refusal) : Option Ret := (next? o).bind State.ret

/-- The characters emitted. -/
def emitted (o : Host.Outcome State Fault Refusal) : Option (List CharW) := (next? o).map State.outbox

/-! ## Encodings, written out from 30_encoding.md -/

/-- CONFIG: command bit 1 with its record (R53). -/
theorem test_decode_config : decode (.transaction 0b1#1 0#8 ⟨[⟨strI, 3⟩], strBH⟩) = .ok (.config ⟨[⟨strI, 3⟩], strBH⟩) := rfl

/-- CHAR: command bit 0, character `A` (R47, R53). -/
theorem test_decode_char : decode (.transaction 0b0#1 0b01000001#8 emptyRecord) = .ok (.char 0x41#8) := by decide

/-- ENC: class 010, ordinals 1 and 26 (R47). -/
theorem test_decode_enc : decode (.character 0b01000001#8) = .ok (.enc 0) ∧
    decode (.character 0b01011010#8) = .ok (.enc 25) := by decide

/-- ENC.L: class 011, ordinals 1 and 26 (R47). -/
theorem test_decode_encL : decode (.character 0b01100001#8) = .ok (.encL 0) ∧
    decode (.character 0b01111010#8) = .ok (.encL 25) := by decide

/-- PASS: the neighbours of the letter ranges and `0x80` and above (R56, 95_test_vectors.md section 3.5). -/
theorem test_decode_pass : [0x40#8, 0x5B#8, 0x60#8, 0x7B#8, 0x80#8, 0xC1#8, 0xE1#8, 0xFF#8, 0x00#8, 0x39#8].map
    decodeChar = [.pass 0x40#8, .pass 0x5B#8, .pass 0x60#8, .pass 0x7B#8, .pass 0x80#8, .pass 0xC1#8, .pass 0xE1#8,
      .pass 0xFF#8, .pass 0x00#8, .pass 0x39#8] := by decide

/-- STEPALL and STEP have no code of their own (40_rotor.md R67, R68). -/
theorem test_decode_stepping : decode (.stepping none) = .ok .stepAll ∧ decode (.stepping (some 2)) = .ok (.step 2) := by
  decide

/-- FWD: select 00 with the rotor and the symbol word 10111 = 23 (R46, R54). -/
theorem test_decode_fwd : decode (.stage 0b00#2 2 0b10111#5 0#8) = .ok (.fwd 2 23) := by decide

/-- REFL: select 01 (R54). -/
theorem test_decode_refl : decode (.stage 0b01#2 7 0b11001#5 0#8) = .ok (.refl 25) := by decide

/-- BWD: select 10 (R54). -/
theorem test_decode_bwd : decode (.stage 0b10#2 1 0b00110#5 0#8) = .ok (.bwd 1 6) := by decide

/-- BYPASS: select 11; the symbol word is not read, be it 31 (R54). -/
theorem test_decode_bypass : decode (.stage 0b11#2 0 0b11111#5 0x2C#8) = .ok (.bypass 0x2C#8) := by decide

/-- A symbol word 26 is refused by name (R46). -/
theorem test_decode_not_a_symbol : decode (.stage 0b00#2 0 0b11010#5 0#8) = .error (.notASymbol 26#5) := by decide

/-- Table words: CONFIG, CHAR, capital and small letters, a passed code, the four selects. -/
theorem test_table_words : decodeTableWord 1 1 = some (.config emptyRecord) ∧ decodeTableWord 9 0x41 = some (.char 0x41#8) ∧
    decodeTableWord 8 0x5A = some (.enc 25) ∧ decodeTableWord 8 0x61 = some (.encL 0) ∧
    decodeTableWord 8 0x2C = some (.pass 0x2C#8) ∧ decodeTableWord 0 0 = some .stepAll ∧
    decodeTableWord 2 0 = some (.fwd 0 0) ∧ decodeTableWord 2 1 = some (.refl 0) ∧
    decodeTableWord 2 2 = some (.bwd 0 0) ∧ decodeTableWord 2 3 = some (.bypass 0#8) := by decide

/-! ## Well-formedness -/

/-- PASS of the letter `A` is ill formed; of a comma, well formed. -/
theorem test_wellFormed : (Instr.pass 0x41#8).wellFormed = false ∧ (Instr.pass 0x2C#8).wellFormed = true := by decide

/-! ## Operands -/

/-- 30_encoding.md R51: the string of wiring I gives the table of wiring I. -/
theorem test_permTable : permTable strI = some tabI := by decide

/-- 95_test_vectors.md section 3.7 cases 2 and 7: 25 characters; `a` beside `A`. -/
theorem test_permTable_bad : permTable (strI.take 25) = none ∧ permTable (0x61#8 :: 0x41#8 :: strI.drop 2) = none := by
  decide

/-- 30_encoding.md R52: 25 is legal, 26 and -1 are not reduced. -/
theorem test_posOperand : posOperand 25 = some 25 ∧ posOperand 26 = none ∧ posOperand (-1) = none := by decide

/-! ## Operations -/

/-- 40_rotor.md R68: `[25, 0, 12]` becomes `[0, 1, 13]`. -/
theorem test_stepAll : positions (exec .stepAll (std 25 0 12)) = some [0, 1, 13] := by decide

/-- 40_rotor.md R67: the wrap at 25, with no carry. -/
theorem test_step_wraps : positions (exec (.step 0) (std 25 0 13)) = some [0, 0, 13] := by decide

/-- 40_rotor.md R69: `POS = 1`, FWD 0 is 10; `POS = 25`, FWD 1 is 4. -/
theorem test_fwd : returned (exec (.fwd 0 0) (std 1 0 0)) = some (.sym 10) ∧
    returned (exec (.fwd 0 1) (std 25 0 0)) = some (.sym 4) := by decide

/-- 95_test_vectors.md section 3.2: wiring III at 1, FWD 25 is 1. -/
theorem test_fwd_wraps : returned (exec (.fwd 2 25) (std 0 0 1)) = some (.sym 1) := by decide

/-- 40_rotor.md R70: `POS = 1`, BWD 10 is 0 and BWD 4 is 25, never -1. -/
theorem test_bwd : returned (exec (.bwd 0 10) (std 1 0 0)) = some (.sym 0) ∧
    returned (exec (.bwd 0 4) (std 1 0 0)) = some (.sym 25) := by decide

/-- 95_test_vectors.md section 3.2: wiring II at 13, BWD 0 is 13. -/
theorem test_bwd_second_rotor : returned (exec (.bwd 1 0) (std 0 13 0)) = some (.sym 13) := by decide

/-- 95_test_vectors.md section 3.3: BH takes 15 to 8 and 25 to 19. -/
theorem test_refl : returned (exec (.refl 15) (std 1 2 3)) = some (.sym 8) ∧
    returned (exec (.refl 25) (std 1 2 3)) = some (.sym 19) := by decide

/-- 42_signal_path.md R86: ENC 0 from `[0, 0, 0]` returns 17 at `[1, 1, 1]`. -/
theorem test_enc : returned (exec (.enc 0) (std 0 0 0)) = some (.sym 17) ∧
    positions (exec (.enc 0) (std 0 0 0)) = some [1, 1, 1] := by decide

/-- 95_test_vectors.md Program C: `T` (19) at `[5, 9, 13]` after the step gives `Z` (25). -/
theorem test_encL : returned (exec (.encL 19) (std 4 8 12)) = some (.sym 25) := by decide

/-- 42_signal_path.md R87: PASS of a comma returns it and leaves the positions. -/
theorem test_pass : returned (exec (.pass 0x2C#8) (std 1 2 3)) = some (.chr 0x2C#8) ∧
    positions (exec (.pass 0x2C#8) (std 1 2 3)) = some [1, 2, 3] := by decide

/-- 30_encoding.md R54: BYPASS routes the character unchanged. -/
theorem test_bypass : returned (exec (.bypass 0xE1#8) (std 1 2 3)) = some (.chr 0xE1#8) := by decide

/-- 42_signal_path.md R88: `a` is enciphered like `A` and comes out as `R`. -/
theorem test_char_small : emitted (exec (.char 0x61#8) (std 0 0 0)) = some [0x52#8] ∧
    positions (exec (.char 0x61#8) (std 0 0 0)) = some [1, 1, 1] := by decide

/-- 95_test_vectors.md section 3.6(b): `Z` at `[0, 0, 0]` after the wrap gives `H`. -/
theorem test_char_wrap : emitted (exec (.char 0x5A#8) (std 25 25 25)) = some [0x48#8] := by decide

/-- 95_test_vectors.md section 3.7 case 16: position 25 is accepted. -/
theorem test_config : (next? (exec (.config ⟨[⟨strI, 25⟩], strBH⟩) blank)).map (fun s => (s.mode, s.err.code, s.rotors, s.refl)) =
    some (.ready, 0#2, [⟨tabI, 25⟩], tabBH) := by decide

/-- 95_test_vectors.md section 3.7 case 18: the source's reflector and position 26 give InvalidReflector at 0. -/
theorem test_config_priority : (next? (exec (.config ⟨[⟨strI, 26⟩], strSrc⟩) blank)).map
    (fun s => (s.mode, s.err.code, s.reports)) = some (.unconfigured, 2#2, [.failed (.invalidReflector 0)]) := by decide

/-! ## The step -/

/-- A presented CHAR is taken and runs (70_reset_and_hazards.md R152). -/
theorem test_step : emitted (step ((std 0 0 0).present (.op (.transaction 0#1 0x41#8 emptyRecord)))) = some [0x52#8] := by
  decide

/-- 95_test_vectors.md Program D line 1: CHAR straight after reset is refused. -/
theorem test_step_char_after_reset :
    refusal? (step (State.reset.present (.op (.transaction 0#1 0x41#8 emptyRecord)))) = some .unconfigured := by decide

/-- The empty record placed first after reset is judged: its reflector string has length 0 (section 3.7 case 10). -/
theorem test_fetch_config : (next? (step (State.reset.withFetchWord 1 1))).map (fun s => (s.err.code, s.reports)) =
    some (1#2, [.failed (.invalidWiring .reflector)]) := by decide

/-- A FWD placed first after reset runs on the configuration put in place for it: the identity at position 0. -/
theorem test_fetch_fwd : returned (step (State.reset.withFetchWord 2 0)) = some (.sym 0) := by decide

/-- A word of each row, placed first after reset, completes: STEPALL, CONFIG, the four selects, ENC, ENC.L, PASS,
CHAR; and the rows whose counts are rounded up to bytes. -/
theorem test_fetch_rows : ([(0, 0), (1, 1), (2, 0), (2, 1), (2, 2), (2, 3), (8, 0x5A), (8, 0x61), (8, 0x2C), (9, 0x41),
    (8, 0), (8, 1), (8, 2), (8, 3), (8, 0x40), (8, 0x60), (16, 0)].all fun p =>
      (next? (step (State.reset.withFetchWord p.1 p.2))).isSome) = true := by decide

/-- 43_construction.md R114: from reset, an instance of capacity 1 takes a record of one rotor, and one of capacity 0
has no slot for it. -/
theorem test_capacity :
    (next? ((coreFor (some 1)).step ((State.resetFor (some 1)).present (.op (.transaction 1#1 0#8 ⟨[⟨strI, 25⟩], strBH⟩))))).map
      State.mode = some .ready ∧
    refusal? ((coreFor (some 0)).step ((State.resetFor (some 0)).present (.op (.transaction 1#1 0#8 ⟨[⟨strI, 25⟩], strBH⟩)))) =
      some .recordTooLong := by decide

/-! ## Text -/

/-- 30_encoding.md R58: `CHAR 0x0A` and `FWD 2, 17`. -/
theorem test_text : (Instr.char 0x0A#8).text = some ['C', 'H', 'A', 'R', ' ', '0', 'x', '0', 'A'] ∧
    (Instr.fwd 2 17).text = some ['F', 'W', 'D', ' ', '2', ',', ' ', '1', '7'] := by decide

/-! ## Witnesses: the hypotheses of each statement can be met together -/

/-- `CHAR 'A'` as the host presents it. -/
def charA : Event := .op (.transaction 0#1 0x41#8 emptyRecord)

/-- The record `rotors=[(I, 25)] reflector=BH`. -/
def recI : Record := ⟨[⟨strI, 25⟩], strBH⟩

/-- A record whose second rotor string, reflector and second position are all bad. -/
def twoBad : Record := ⟨[⟨strI, 0⟩, ⟨strI.take 25, 30⟩], strSrc⟩

/-- A record that is bad in its second position alone. -/
def badPosition : Record := ⟨[⟨strI, 25⟩, ⟨strI, 26⟩], strBH⟩

/-- A table that is no permutation. -/
def tabZero : Table := Vector.replicate 26 0

/-- A READY state that no run reaches: its rotor's table is no permutation. -/
def broken : State := ready [⟨tabZero, 0⟩] tabBH

/-- The machine `one 25` after it has emitted a character and reported a CONFIG. -/
def oneUsed : State := { one 25 with outbox := [0x41#8], reports := [.success] }

/-- An instance with room for one rotor. -/
def tiny : State := { blank with nMax := some 1 }

theorem completes {o : Host.Outcome State Fault Refusal} (h : (next? o).isSome = true) : ∃ t, o = .next t := by
  cases o with
  | next t => exact ⟨t, rfl⟩
  | fault r => cases r
  | refused r => simp [next?] at h

/-- The invariant holds of the machine used below. -/
theorem one_inv : (one 25).Inv := by decide

/-- Wiring I is a permutation. -/
theorem tabI_perm : TableIsPerm tabI := by decide

/-- The record used below passes every check. -/
theorem recI_valid : Record.Valid recI := by decide

theorem witness_StepRunsDecodedInstruction :
    ((one 25).present (.op (.stage 0b00#2 0 25#5 0#8))).inbox = .op (.stage 0b00#2 0 25#5 0#8) :: [] ∧
    decode (.stage 0b00#2 0 25#5 0#8) = .ok (.fwd 0 25) :=
  by decide

theorem witness_StepTakesResetEvent : ((one 25).present .reset).inbox = .reset :: [] := rfl

theorem witness_StepIdlesOrRefusesNonSymbols : (one 0).inbox = [] ∧
    ((one 0).present (.op (.stage 0b00#2 0 26#5 0#8))).inbox = .op (.stage 0b00#2 0 26#5 0#8) :: [] ∧
    (0b00#2 ≠ 0b11#2) ∧ 26 ≤ (26#5).toNat ∧ 26 ≤ (31#5).toNat := by decide

theorem witness_EveryStepKeepsInv :
    ((one 25).present charA).Inv ∧ ∃ t, step ((one 25).present charA) = .next t :=
  ⟨one_inv, completes (by decide)⟩

theorem witness_ConfigEstablishesInv : ∃ t, exec (.config recI) blank = .next t := completes (by decide)

theorem witness_EveryStepKeepsBetween :
    ((one 25).present charA).Between ∧ ∃ t, step ((one 25).present charA) = .next t :=
  ⟨by decide, completes (by decide)⟩

theorem witness_StepsOfCharactersAreProcess :
    ∃ t, process [0x41#8, 0x2C#8] { one 25 with inbox := [.reset] } = .next t :=
  completes (by decide)

theorem witness_DecodeOfEncode :
    (Instr.pass 0x40#8).wellFormed = true ∧ (Instr.pass 0x5B#8).wellFormed = true ∧ (Instr.bwd 0 25).wellFormed = true :=
  by decide

/-- Both clauses where they come closest: the last capital, the first small letter. -/
theorem witness_CharacterOfSymbol :
    symOfChar 0x5A#8 = some 25 ∧ (0x5A#8).toNat ≤ 0x5A ∧ symOfChar 0x61#8 = some 0 ∧ 0x61 ≤ (0x61#8).toNat :=
  by decide

theorem witness_PseudoOperationsExpand : [(7 : Int)].length = recI.rotors.length := rfl

theorem witness_StepAdvancesOneRotor : (one 25).mode = .ready ∧ (one 25).rotors[0]? = some ⟨tabI, 25⟩ := ⟨rfl, rfl⟩

theorem witness_StepAllAdvancesEveryRotor : (std 25 0 12).mode = .ready := rfl

theorem witness_StepAllIsStepsInAnyOrder :
    (std 25 0 12).mode = .ready ∧ [2, 0, 1].Perm (List.range (std 25 0 12).n) :=
  ⟨rfl, by decide⟩

theorem witness_FwdLooksUpTheShiftedIndex :
    (one 25).mode = .ready ∧ (one 25).rotors[0]? = some ⟨tabI, 25⟩ :=
  ⟨rfl, rfl⟩

theorem witness_BwdFindsThenShiftsBack :
    (one 25).mode = .ready ∧ (one 25).rotors[0]? = some ⟨tabI, 25⟩ ∧ TableIsPerm tabI :=
  ⟨rfl, rfl, tabI_perm⟩

/-- Several indices hold 0, none holds 1. -/
theorem witness_BwdRefusedWithoutUniqueIndex : broken.mode = .ready ∧ broken.rotors[0]? = some ⟨tabZero, 0⟩ ∧
    (¬ ∃ j : Sym, tabRead tabZero j = 0 ∧ ∀ j', tabRead tabZero j' = 0 → j' = j) ∧
    ¬ ∃ j : Sym, tabRead tabZero j = 1 ∧ ∀ j', tabRead tabZero j' = 1 → j' = j := ⟨rfl, rfl, by decide, by decide⟩

theorem witness_RotorNumberOutOfRangeRefused : (one 0).mode = .ready ∧ (one 0).n ≤ 1 := by decide

theorem witness_RotorInverseLaw :
    (one 25).mode = .ready ∧ (one 25).rotors[0]? = some ⟨tabI, 25⟩ ∧ TableIsPerm tabI :=
  ⟨rfl, rfl, tabI_perm⟩

theorem witness_FwdIsAPermutation :
    (one 25).mode = .ready ∧ (one 25).rotors[0]? = some ⟨tabI, 25⟩ ∧ TableIsPerm tabI :=
  ⟨rfl, rfl, tabI_perm⟩

theorem witness_ReflLooksUp : (one 0).mode = .ready := rfl

theorem witness_ReflectorInvolutionLaw : (one 25).mode = .ready ∧ (one 25).Inv := ⟨rfl, one_inv⟩

theorem witness_PassAndBypassReturnTheCharacter :
    (one 0).mode = .ready ∧ symOfChar 0x40#8 = none ∧ symOfChar 0x5B#8 = none :=
  by decide

theorem witness_PassOfLetterRefused : (one 0).mode = .ready ∧ symOfChar 0x5A#8 = some 25 := by decide

theorem witness_EncStepsThenFollowsTheStages : (one 25).mode = .ready ∧ (one 25).Inv := ⟨rfl, one_inv⟩

theorem witness_LetterReciprocity : (one 25).mode = .ready ∧ (one 25).Inv := ⟨rfl, one_inv⟩

/-- One witness for each of its three clauses, a non-letter and a letter next to one another. -/
theorem witness_CharTransformsOneCharacter :
    blank.mode = .unconfigured ∧ (one 25).mode = .ready ∧ (one 25).Inv ∧ symOfChar 0x60#8 = none ∧
    symOfChar 0x61#8 = some 0 :=
  ⟨rfl, rfl, one_inv, by decide, by decide⟩

theorem witness_NoLetterEnciphersToItself :
    (one 25).mode = .ready ∧ (one 25).Inv ∧ symOfChar 0x7A#8 = some 25 :=
  ⟨rfl, one_inv, by decide⟩

theorem witness_LetterRefusedWithoutUniqueIndex : broken.mode = .ready ∧ symOfChar 0x41#8 = some 0 ∧
    signalPath (broken.rotors.map Rotor.step) broken.refl 0 = none := by decide

theorem witness_UnconfiguredRefusesAllButConfig :
    blank.mode = .unconfigured ∧ ∀ rec, Instr.stepAll ≠ .config rec :=
  ⟨rfl, fun _ h => (nomatch h)⟩

theorem witness_TransformIsTotal : (one 25).mode = .ready ∧ (one 25).Inv := ⟨rfl, one_inv⟩

theorem witness_OneOutputPerInput : (one 25).mode = .ready ∧ (one 25).Inv := ⟨rfl, one_inv⟩

theorem witness_NonLettersDoNotDisturb : (one 25).mode = .ready ∧ (one 25).Inv := ⟨rfl, one_inv⟩

theorem witness_PositionsCountLetters : (one 25).mode = .ready ∧ (one 25).Inv := ⟨rfl, one_inv⟩

theorem witness_OutputIsSubstitutionAtTheLetterCount : (one 25).mode = .ready ∧ (one 25).Inv := ⟨rfl, one_inv⟩

theorem witness_OffsetsBetweenRotorsAreKept :
    (one 25).mode = .ready ∧ (one 25).Inv ∧ (one 25).pos 0 = some 25 :=
  ⟨rfl, one_inv, by decide⟩

/-- Two different states in matched state. -/
theorem witness_OutputDependsOnTablesAndPositions :
    (one 25).mode = .ready ∧ (one 25).Inv ∧ oneUsed.mode = .ready ∧ oneUsed.Inv ∧ Matched (one 25) oneUsed :=
  ⟨rfl, one_inv, rfl, one_inv, rfl, rfl⟩

theorem witness_SubstitutionRepeatsAfter26Letters :
    (one 25).mode = .ready ∧ (one 25).Inv ∧ letterCount (List.replicate 26 0x61#8) = 26 * 1 :=
  ⟨rfl, one_inv, by decide⟩

theorem witness_MessagesConcatenate : ∃ t, process [0x41#8, 0x20#8] (one 25) = .next t := completes (by decide)

theorem witness_MessageSelfReciprocity :
    (one 25).mode = .ready ∧ (one 25).Inv ∧ oneUsed.mode = .ready ∧ oneUsed.Inv ∧ Matched (one 25) oneUsed :=
  ⟨rfl, one_inv, rfl, one_inv, rfl, rfl⟩

/-- The position is 25, the highest legal one. -/
theorem witness_ConfigCommits : blank.hasRoomFor recI.rotors.length = true ∧ Record.Valid recI := ⟨rfl, recI_valid⟩

/-- An instance with exactly the room the record needs. -/
theorem witness_InvalidWiringExactlyWhen : tiny.hasRoomFor recI.rotors.length = true := rfl

theorem witness_InvalidReflectorExactlyWhen : tiny.hasRoomFor recI.rotors.length = true := rfl

theorem witness_InvalidPositionExactlyWhen : tiny.hasRoomFor recI.rotors.length = true := rfl

/-- Clause 1: rotor 0 good, rotor 1 bad, with a bad reflector and a bad position as well (95_test_vectors.md section
3.7 case 19 has the same shape). -/
theorem witness_ReportedErrorFollowsThePriority_rotorString :
    blank.hasRoomFor 2 = true ∧ twoBad.rotors[1]? = some ⟨strI.take 25, 30⟩ ∧ ¬ ValidWiring (strI.take 25) ∧
      ∀ j < 1, ∀ q, twoBad.rotors[j]? = some q → ValidWiring q.wiring := by
  refine ⟨rfl, rfl, by decide, ?_⟩
  rintro (_ | j) hj q hq
  · cases hq; exact recI_valid.1.1 ⟨strI, 25⟩ (by simp [recI])
  · omega

/-- Clause 2: no rotors, the reflector string empty (95_test_vectors.md section 3.7 case 10). -/
theorem witness_ReportedErrorFollowsThePriority_reflectorString :
    blank.hasRoomFor 0 = true ∧ (∀ r ∈ emptyRecord.rotors, ValidWiring r.wiring) ∧ ¬ ValidWiring emptyRecord.refl :=
  ⟨rfl, by decide, by decide⟩

/-- Clause 3, with a position that is bad too. -/
theorem witness_ReportedErrorFollowsThePriority_reflector :
    blank.hasRoomFor 1 = true ∧ Record.WiringsValid ⟨[⟨strI, 26⟩], strSrc⟩ ∧ ReflectorFailsAt strSrc 0 ∧
    ∀ b < (0 : Sym), ¬ ReflectorFailsAt strSrc b :=
  ⟨rfl, by decide, by decide, by decide⟩

/-- Clause 4: the first position 25, legal, the second one 26, too large. -/
theorem witness_ReportedErrorFollowsThePriority_position :
    blank.hasRoomFor 2 = true ∧ Record.WiringsValid badPosition ∧ ValidReflector badPosition.refl ∧
      badPosition.rotors[1]? = some ⟨strI, 26⟩ ∧ ¬ ValidPosition 26 ∧
      ∀ j < 1, ∀ q, badPosition.rotors[j]? = some q → ValidPosition q.pos := by
  refine ⟨rfl, ⟨?_, recI_valid.1.2⟩, recI_valid.2.1, rfl, by decide, ?_⟩
  · intro r hr
    have : r.wiring = strI := by simp [badPosition] at hr; rcases hr with rfl | rfl <;> rfl
    exact this ▸ recI_valid.1.1 ⟨strI, 25⟩ (by simp [recI])
  · rintro (_ | j) hj q hq
    · cases hq; decide
    · omega

theorem witness_FailedConfigRaises :
    blank.hasRoomFor 1 = true ∧ ¬ Record.Valid ⟨[⟨strI, -1⟩], strBH⟩ :=
  ⟨rfl, by decide⟩

theorem witness_ConfigReadsTheRecordAlone :
    blank.hasRoomFor recI.rotors.length = true ∧ (std 1 2 3).hasRoomFor recI.rotors.length = true :=
  ⟨rfl, rfl⟩

theorem witness_TooLongRecordRefused :
    tiny.nMax = some 1 ∧ 1 < (Record.mk [⟨strI, 0⟩, ⟨strI, 0⟩] strBH).rotors.length :=
  ⟨rfl, by decide⟩

theorem witness_SameRecordDeciphers :
    blank.hasRoomFor recI.rotors.length = true ∧ Record.Valid recI :=
  ⟨rfl, recI_valid⟩

theorem witness_ModeTransitions :
    (∃ t, exec (.config recI) blank = .next t) ∧ (∃ t, exec .stepAll (one 25) = .next t) ∧
    ∀ rec, Instr.stepAll ≠ .config rec :=
  ⟨completes (by decide), completes (by decide), fun _ h => (nomatch h)⟩

theorem witness_OnlyConfigWritesTablesAndStatus :
    (∀ rec, Instr.char 0x41#8 ≠ .config rec) ∧ ∃ t, exec (.char 0x41#8) (one 25) = .next t :=
  ⟨fun _ h => (nomatch h), completes (by decide)⟩

theorem witness_PositionsChangeOnlyByStepping :
    (∀ rec, Instr.step 0 ≠ .config rec) ∧ (∃ t, exec (.step 0) (one 25) = .next t) ∧ (one 25).pos 0 = some 25 ∧
    (∃ t, exec (.bwd 0 25) (one 25) = .next t) ∧ symOfChar 0x40#8 = none ∧ ∃ t, exec (.char 0x40#8) (one 25) = .next t :=
  ⟨fun _ h => (nomatch h), completes (by decide), by decide, completes (by decide), by decide, completes (by decide)⟩

theorem witness_OnlyCharEmitsAndOnlyOne :
    (∃ t, exec (.char 0x41#8) (one 25) = .next t) ∧ ∃ t, exec (.enc 0) (one 25) = .next t :=
  ⟨completes (by decide), completes (by decide)⟩

end Sys2Proof.Tests
end

section
/-! The arithmetic of symbols (00_scope.md R7, 40_rotor.md R65): the residue class of `mod26`, its exact values on the
sum and the difference of two symbols, and the absorption of an inner `mod26`, from which the inverse laws follow. -/
namespace Sys2Proof.Machine

theorem dvd_sub_mod26 (v : Int) : (26 : Int) ∣ v - (mod26 v).val :=
  Int.dvd_of_emod_eq_zero ((mod26_eq_iff v _).1 rfl)

theorem eq_mod26_of_dvd_sub {v : Int} {r : Sym} (h : (26 : Int) ∣ v - r.val) : r = mod26 v :=
  ((mod26_eq_iff v r).2 (Int.emod_eq_zero_of_dvd h)).symm

theorem mod26_add_val (a b : Sym) :
    (mod26 (a.val + b.val)).val = if a.val + b.val ≤ 25 then a.val + b.val else a.val + b.val - 26 := by
  have residue := mod26_val (a.val + b.val)
  split <;> omega

theorem mod26_sub_val (a b : Sym) :
    (mod26 ((a.val : Int) - b.val)).val = if b.val ≤ a.val then a.val - b.val else a.val + 26 - b.val := by
  have residue := mod26_val ((a.val : Int) - b.val)
  split <;> omega

@[simp] theorem mod26_mod26_add (u v : Int) : mod26 ((mod26 u).val + v) = mod26 (u + v) := by
  rw [mod26_eq_iff, mod26_val, mod26_val]; omega

@[simp] theorem mod26_mod26_sub (u v : Int) : mod26 ((mod26 u).val - v) = mod26 (u - v) := by
  rw [mod26_eq_iff, mod26_val, mod26_val]; omega

theorem mod26_add_sub_cancel (a b : Sym) : mod26 (((mod26 (a.val + b.val)).val : Int) - b.val) = a := by
  rw [mod26_mod26_sub, Int.add_sub_cancel, mod26_cast]

theorem mod26_sub_add_cancel (a b : Sym) : mod26 ((mod26 ((a.val : Int) - b.val)).val + b.val) = a := by
  rw [mod26_mod26_add, Int.sub_add_cancel, mod26_cast]

/-- Settles O17: residue class and uniqueness from the characterisation of `mod26` by divisibility, the inverse laws by
absorbing the inner reduction. -/
theorem modularArithmetic : Obligations.ModularArithmetic :=
  ⟨fun v => ⟨dvd_sub_mod26 v, fun _ => eq_mod26_of_dvd_sub⟩,
   fun a b => ⟨mod26_add_val a b, mod26_sub_val a b, mod26_add_sub_cancel a b, mod26_sub_add_cancel a b⟩⟩

end Sys2Proof.Machine
end

section
/-! The state's two invariants and the frames of its operations (10_state.md sections 3 to 8). One inversion lemma,
`exec_eq_next_of_ne_config`, says what an operation other than CONFIG can leave, and one, `judge_eq_ok`, what CONFIG
commits; the invariants follow from the two. -/
namespace Sys2Proof.Machine

/-! ## What stepping does to a stack -/

/-- Each rotor of the second stack is that of the first, or that one stepped (10_state.md R12). -/
abbrev StackMoves (rs qs : List Rotor) : Prop := List.Forall₂ (fun r q => q = r ∨ q = Rotor.step r) rs qs

theorem StackMoves.refl (rs : List Rotor) : StackMoves rs rs :=
  List.forall₂_same.2 fun _ _ => .inl rfl

theorem StackMoves.map_step (rs : List Rotor) : StackMoves rs (rs.map Rotor.step) :=
  List.forall₂_map_right_iff.2 (List.forall₂_same.2 fun _ _ => .inr rfl)

theorem StackMoves.set_step {rs : List Rotor} {k : Nat} {r : Rotor} (h : rs[k]? = some r) :
    StackMoves rs (rs.set k (Rotor.step r)) := by
  induction rs generalizing k with
  | nil => exact .nil
  | cons q rs ih =>
    cases k with
    | zero =>
      obtain rfl : q = r := by simpa using h
      exact .cons (.inr rfl) (StackMoves.refl rs)
    | succ k => exact .cons (.inl rfl) (ih (by simpa using h))

theorem StackMoves.map_wiring {rs qs : List Rotor} (h : StackMoves rs qs) :
    qs.map Rotor.wiring = rs.map Rotor.wiring := by
  induction h with
  | nil => rfl
  | cons hq _ ih => obtain rfl | rfl := hq <;> simp [ih]

theorem StackMoves.getElem? {rs qs : List Rotor} (h : StackMoves rs qs) {k : Nat} {r : Rotor} (hr : rs[k]? = some r) :
    qs[k]? = some r ∨ qs[k]? = some (Rotor.step r) := by
  induction h generalizing k with
  | nil => simp at hr
  | @cons q _ _ _ hq _ ih =>
    cases k with
    | zero =>
      obtain rfl : q = r := by simpa using hr
      simpa using hq
    | succ k => simpa using ih (by simpa using hr)

/-! ## What an operation other than CONFIG can leave -/

/-- An operation other than CONFIG completes in mode READY only, and writes nothing but the positions, each moved by a
step or not at all, the output stream and the value it returns. -/
theorem exec_eq_next_of_ne_config {s t : State} {i : Instr} (hi : ∀ rec, i ≠ .config rec) (h : exec i s = .next t) :
    s.mode = .ready ∧ ∃ rs out v, StackMoves s.rotors rs ∧ t = { s with rotors := rs, outbox := out, ret := v } := by
  cases i with
  | config rec => exact absurd rfl (hi rec)
  | char c =>
    obtain ⟨hm, ⟨-, rfl⟩ | ⟨x, y, -, -, rfl⟩⟩ := execChar_eq_next.1 h
    · exact ⟨hm, _, _, _, .refl _, rfl⟩
    · exact ⟨hm, _, _, _, .map_step _, rfl⟩
  | enc x => obtain ⟨hm, y, -, rfl⟩ := execEnc_eq_next.1 h; exact ⟨hm, _, _, _, .map_step _, rfl⟩
  | encL x => obtain ⟨hm, y, -, rfl⟩ := execEncL_eq_next.1 h; exact ⟨hm, _, _, _, .map_step _, rfl⟩
  | stepAll => obtain ⟨hm, rfl⟩ := execStepAll_eq_next.1 h; exact ⟨hm, _, _, _, .map_step _, rfl⟩
  | step k => obtain ⟨hm, r, hr, rfl⟩ := execStep_eq_next.1 h; exact ⟨hm, _, _, _, .set_step hr, rfl⟩
  | pass c => obtain ⟨hm, -, rfl⟩ := execPass_eq_next.1 h; exact ⟨hm, _, _, _, .refl _, rfl⟩
  | fwd k x => obtain ⟨hm, r, -, rfl⟩ := execFwd_eq_next.1 h; exact ⟨hm, _, _, _, .refl _, rfl⟩
  | refl x => obtain ⟨hm, rfl⟩ := execRefl_eq_next.1 h; exact ⟨hm, _, _, _, .refl _, rfl⟩
  | bwd k x => obtain ⟨hm, r, -, y, -, rfl⟩ := execBwd_eq_next.1 h; exact ⟨hm, _, _, _, .refl _, rfl⟩
  | bypass c => obtain ⟨hm, rfl⟩ := execBypass_eq_next.1 h; exact ⟨hm, _, _, _, .refl _, rfl⟩

/-- Settles O58: the positions, the output stream and the returned value are all that an operation other than CONFIG
writes, and a moved rotor keeps its table. -/
theorem onlyConfigWritesTablesAndStatus : Obligations.OnlyConfigWritesTablesAndStatus := by
  intro s t i hi h
  obtain ⟨-, rs, out, v, moves, rfl⟩ := exec_eq_next_of_ne_config hi h
  exact ⟨moves.map_wiring, rfl, rfl, rfl, rfl, rfl, rfl, rfl⟩

theorem pos_of_exec_ne_config {s t : State} {i : Instr} {k : Nat} {p : Sym} (hi : ∀ rec, i ≠ .config rec)
    (h : exec i s = .next t) (hp : s.pos k = some p) : t.pos k = some p ∨ t.pos k = some (mod26 (p.val + 1)) := by
  obtain ⟨-, rs, out, v, moves, rfl⟩ := exec_eq_next_of_ne_config hi h
  obtain ⟨r, hr, rfl⟩ := Option.map_eq_some_iff.1 hp
  exact (moves.getElem? hr).imp (congrArg (Option.map Rotor.pos)) (congrArg (Option.map Rotor.pos))

/-- Settles O59: a position follows its rotor, which is stepped once or not at all; the other operations only return a
value or emit a character. -/
theorem positionsChangeOnlyByStepping : Obligations.PositionsChangeOnlyByStepping := by
  refine ⟨fun s t i k p => pos_of_exec_ne_config, fun s t k x c h => ?_⟩
  obtain h | h | h | h | h | ⟨hc, h⟩ := h
  · obtain ⟨-, -, rfl⟩ := execPass_eq_next.1 h; rfl
  · obtain ⟨-, rfl⟩ := execBypass_eq_next.1 h; rfl
  · obtain ⟨-, r, -, rfl⟩ := execFwd_eq_next.1 h; rfl
  · obtain ⟨-, r, -, y, -, rfl⟩ := execBwd_eq_next.1 h; rfl
  · obtain ⟨-, rfl⟩ := execRefl_eq_next.1 h; rfl
  · obtain ⟨-, ⟨-, rfl⟩ | ⟨i, y, hi, -⟩⟩ := execChar_eq_next.1 h
    · rfl
    · simp [hc] at hi

/-! ## INV -/

theorem State.inv_of_unconfigured {s : State} (h : s.mode = .unconfigured) : s.Inv :=
  fun ready => by simp [h] at ready

/-- INV reads of a stack its tables only: moved rotors meet it as the others did. -/
theorem State.Inv.of_moves {s : State} (inv : s.Inv) {rs : List Rotor} (moves : StackMoves s.rotors rs)
    (out : List CharW) (v : Option Ret) : State.Inv { s with rotors := rs, outbox := out, ret := v } := by
  intro ready
  obtain ⟨room, perms, perm, reflector, err⟩ := inv ready
  rw [State.n, moves.length_eq] at room
  refine ⟨room, fun q hq => ?_, perm, reflector, err⟩
  obtain ⟨r, hr, e⟩ := List.mem_map.1 (moves.map_wiring ▸ List.mem_map_of_mem (f := Rotor.wiring) hq)
  exact e ▸ perms r hr

theorem tableIsPerm_of_permTable {w : WiringString} {T : Table} (h : permTable w = some T) : TableIsPerm T :=
  tableIsPerm_of_nodup ((permTable_eq_some_iff w T).1 h).2

theorem Rotor.wiring_mem_of_mem_zipWith {Ts : List Table} {ps : List Sym} {r : Rotor}
    (h : r ∈ List.zipWith Rotor.mk Ts ps) : r.wiring ∈ Ts := by
  obtain ⟨j, hj, rfl⟩ := List.mem_iff_getElem.1 h
  simp

/-- What CONFIG commits when its checks pass: as many rotors as the record has, their tables permutations, and a
reflector table (43_construction.md R105 to R110). -/
theorem judge_eq_ok {rec : Record} {rs : List Rotor} {U : Table} (h : judge rec = .ok (rs, U)) :
    rs.length = rec.rotors.length ∧ (∀ r ∈ rs, TableIsPerm r.wiring) ∧ TableIsPerm U ∧ TableIsReflector U := by
  obtain ⟨Ts, V, ps, hj, hT, hV, reflector, hp⟩ | ⟨j, r, hj, -⟩ | ⟨-, hj, -⟩ | ⟨-, V, a, -, hj, -⟩ |
      ⟨-, V, j, r, -, -, hj, -⟩ := judge_cases rec <;> rw [h] at hj
  case inl =>
    cases hj
    refine ⟨?_, fun r hr => ?_, tableIsPerm_of_permTable hV, reflector⟩
    · have tables : rec.rotors.length = Ts.length := by simpa using congrArg List.length hT
      have positions : rec.rotors.length = ps.length := by simpa using congrArg List.length hp
      simp [← tables, ← positions]
    · have wired : some r.wiring ∈ rec.rotors.map fun r => permTable r.wiring :=
        hT ▸ List.mem_map_of_mem (Rotor.wiring_mem_of_mem_zipWith hr)
      obtain ⟨cfg, -, hcfg⟩ := List.mem_map.1 wired
      exact tableIsPerm_of_permTable hcfg
  all_goals cases hj

/-- Settles O7: a CONFIG that passes its checks commits tables that satisfy INV within the capacity, and one that fails
leaves the mode UNCONFIGURED. -/
theorem configEstablishesInv : Obligations.ConfigEstablishesInv := by
  intro s t rec h
  obtain ⟨room, ⟨rs, U, hj, rfl⟩ | ⟨e, -, rfl⟩⟩ := execConfig_eq_next.1 h
  · obtain ⟨len, perms, perm, reflector⟩ := judge_eq_ok hj
    rw [← len] at room
    exact fun _ => ⟨room, perms, perm, reflector, rfl⟩
  · exact State.inv_of_unconfigured rfl

theorem exec_preserves_inv {s t : State} {i : Instr} (inv : s.Inv) (h : exec i s = .next t) : t.Inv := by
  by_cases hi : ∃ rec, i = .config rec
  · obtain ⟨rec, rfl⟩ := hi
    exact configEstablishesInv s t rec h
  · obtain ⟨-, rs, out, v, moves, rfl⟩ := exec_eq_next_of_ne_config (not_exists.1 hi) h
    exact inv.of_moves moves out v

/-- Settles O6: an idle step changes nothing, the reset event leaves the mode UNCONFIGURED, and every operation keeps
INV, which does not read the inbox. -/
theorem everyStepKeepsInv : Obligations.EveryStepKeepsInv := by
  intro s t inv h
  obtain ⟨-, rfl⟩ | ⟨rest, -, rfl⟩ | ⟨raw, rest, i, -, -, hx⟩ := step_cases h
  · exact inv
  · exact State.inv_of_unconfigured rfl
  · exact exec_preserves_inv (s := { s with inbox := rest }) inv hx

/-! ## Between transactions -/

/-- The host's transactions are CONFIG and CHAR (30_encoding.md R53). -/
theorem decode_of_fromHost {raw : Raw} {i : Instr} (host : (Event.op raw).fromHost = true)
    (h : decode raw = .ok i) : (∃ rec, i = .config rec) ∨ ∃ c, i = .char c := by
  cases raw with
  | transaction cmd c rec =>
    simp only [decode, Except.ok.injEq] at h
    split at h
    · exact .inl ⟨rec, h.symm⟩
    · exact .inr ⟨c, h.symm⟩
  | character | stage | stepping => simp [Event.fromHost] at host

theorem execConfig_ret_inbox {s t : State} {rec : Record} (h : exec (.config rec) s = .next t) :
    t.ret = none ∧ t.inbox = s.inbox := by
  obtain ⟨-, ⟨rs, U, -, rfl⟩ | ⟨e, -, rfl⟩⟩ := execConfig_eq_next.1 h <;> simp

theorem execChar_ret_inbox {s t : State} {c : CharW} (h : exec (.char c) s = .next t) :
    t.ret = none ∧ t.inbox = s.inbox := by
  obtain ⟨-, ⟨-, rfl⟩ | ⟨i, y, -, -, rfl⟩⟩ := execChar_eq_next.1 h <;> simp

theorem exec_ret_inbox_of_fromHost {s t : State} {raw : Raw} {i : Instr} (host : (Event.op raw).fromHost = true)
    (hd : decode raw = .ok i) (h : exec i s = .next t) : t.ret = none ∧ t.inbox = s.inbox := by
  obtain ⟨rec, rfl⟩ | ⟨c, rfl⟩ := decode_of_fromHost host hd
  · exact execConfig_ret_inbox h
  · exact execChar_ret_inbox h

/-- Settles O8: what a host presents decodes to CONFIG or CHAR, which return nothing, and a step only shortens the
inbox. -/
theorem everyStepKeepsBetween : Obligations.EveryStepKeepsBetween := by
  intro s t between h
  obtain ⟨ret, host⟩ := between
  obtain ⟨-, rfl⟩ | ⟨rest, inbox, rfl⟩ | ⟨raw, rest, i, inbox, hd, hx⟩ := step_cases h
  · exact ⟨ret, host⟩
  · rw [inbox] at host
    exact ⟨rfl, fun e he => host e (.tail _ he)⟩
  · rw [inbox] at host
    obtain ⟨ret', (inbox' : t.inbox = rest)⟩ := exec_ret_inbox_of_fromHost (host _ (.head _)) hd hx
    exact ⟨ret', fun e he => host e (.tail _ (inbox' ▸ he))⟩

/-! ## Reset -/

theorem State.resetFor_inv_between (nMax : Option Nat) : (State.resetFor nMax).Inv ∧ (State.resetFor nMax).Between :=
  ⟨State.inv_of_unconfigured (State.resetFor_mode nMax), State.resetFor_ret nMax, by simp⟩

/-- Settles O5: the mode is UNCONFIGURED, nothing is returned, and nothing is presented. -/
theorem invariantsHoldAtReset : Obligations.InvariantsHoldAtReset :=
  ⟨State.resetFor_inv_between _, State.resetFor_inv_between⟩

/-- Settles O4: the two status fields as the reset state writes them, whatever the capacity. -/
theorem resetStatus : Obligations.ResetStatus :=
  ⟨⟨State.resetFor_mode _, rfl, State.resetFor_err _, rfl⟩,
   fun nMax => ⟨State.resetFor_mode nMax, State.resetFor_err nMax, State.resetFor_nMax nMax⟩⟩

end Sys2Proof.Machine
end

section
/-! The host's stream (20_memory.md R38, R45, 42_signal_path.md R89): a step runs what the presented words decode to,
and a presented message runs as PROCESS of it, because a CHAR neither reads nor writes the inbox. -/
namespace Sys2Proof.Machine

/-- Settles O1: the head of the inbox is taken and decoded, and its meaning runs on the state without it. -/
theorem stepRunsDecodedInstruction : Obligations.StepRunsDecodedInstruction := by
  intro s raw rest i inbox decoded
  have taken : s.take = some (.op raw, { s with inbox := rest }) := State.take_eq_some_iff.2 ⟨rest, inbox, rfl⟩
  simp only [step, taken, decoded]

/-- The words a host presents for CHAR of a character (30_encoding.md R53). -/
abbrev charEvent (c : CharW) : Event := .op (.transaction 0#1 c emptyRecord)

theorem execChar_with_inbox {s u : State} {c : CharW} (h : execChar c s = .next u) (l : List Event) :
    execChar c { s with inbox := l } = .next { u with inbox := l } := by
  obtain ⟨hm, ⟨hc, rfl⟩ | ⟨i, y, hc, hy, rfl⟩⟩ := execChar_eq_next.1 h
  · exact execChar_eq_next.2 ⟨hm, .inl ⟨hc, rfl⟩⟩
  · exact execChar_eq_next.2 ⟨hm, .inr ⟨i, y, hc, hy, rfl⟩⟩

theorem step_charEvent {s u : State} {c : CharW} {l rest : List Event}
    (h : execChar c { s with inbox := rest } = .next u) :
    step { s with inbox := charEvent c :: l } = .next { u with inbox := l } :=
  (stepRunsDecodedInstruction _ _ l (.char c) rfl rfl).trans (execChar_with_inbox h l)

theorem core_run_succ_of_step {s u : State} (h : step s = .next u) (k : Nat) :
    Host.Core.run Sys2Proof.core (k + 1) s = Host.Core.run Sys2Proof.core k u := by
  show (coreFor Config.nMaxAtReset).run (k + 1) s = (coreFor Config.nMaxAtReset).run k u
  rw [coreFor_run_succ, h]

/-- Settles O9, by induction on the message: the first step is CHAR of its head, and the state it reaches has the rest
of the message presented. -/
theorem stepsOfCharactersAreProcess : Obligations.StepsOfCharactersAreProcess := by
  intro m s t rest h
  induction m generalizing s with
  | nil => exact h
  | cons c m ih =>
    obtain ⟨u, head, tail⟩ := process_cons_eq_next.1 h
    have inbox : rest = u.inbox := (execChar_ret_inbox (show exec (.char c) _ = _ from head)).2.symm
    refine (core_run_succ_of_step (step_charEvent head) m.length).trans (ih u ?_)
    rw [inbox]
    exact tail

end Sys2Proof.Machine
end

section
/-! Inverse lookups without a result (20_memory.md R32, U15): where the table does not hold the symbol exactly once, the
operation that needs the index is refused. -/
namespace Sys2Proof.Machine

theorem Rotor.bwd_eq_none_iff (r : Rotor) (x : Sym) :
    Rotor.bwd r x = none ↔ ¬ ∃ j : Sym, tabRead r.wiring j = x ∧ ∀ j', tabRead r.wiring j' = x → j' = j := by
  rw [Rotor.bwd, Option.map_eq_none_iff, Option.eq_none_iff_forall_ne_some, not_exists]
  exact forall_congr' fun j => not_congr (tabFind_eq_some_iff r.wiring x j)

@[simp] theorem found_none (f : Sym → Host.Outcome State Fault Refusal) :
    found none f = .refused .tableNotPermutation := rfl

theorem State.withRotor_of_getElem? {s : State} {k : Nat} {r : Rotor} (hr : s.rotors[k]? = some r)
    (f : Rotor → Host.Outcome State Fault Refusal) : s.withRotor k f = f r := by
  simp only [State.withRotor, hr]

theorem State.encipher_refused {s : State} {i : Sym} (h : signalPath (s.rotors.map Rotor.step) s.refl i = none)
    (f : State → Sym → Host.Outcome State Fault Refusal) : s.encipher i f = .refused .tableNotPermutation := by
  rw [State.encipher, State.stepAll_rotors, State.stepAll_refl, h, found_none]

/-- Settles O23: without a unique index the rotor's BWD has no result. -/
theorem bwdRefusedWithoutUniqueIndex : Obligations.BwdRefusedWithoutUniqueIndex := by
  intro s k r x ready hr noIndex
  show execBwd k x s = _
  rw [execBwd, State.whenReady_ready ready, State.withRotor_of_getElem? hr, (Rotor.bwd_eq_none_iff r x).2 noIndex,
    found_none]

/-- Settles O36: all three operations encipher the letter, and the path has no result. -/
theorem letterRefusedWithoutUniqueIndex : Obligations.LetterRefusedWithoutUniqueIndex := by
  intro s c i ready letter noResult
  refine ⟨?_, ?_, ?_⟩
  · show execEnc i s = _
    rw [execEnc, State.whenReady_ready ready, State.encipher_refused noResult]
  · show execEncL i s = _
    rw [execEncL, State.whenReady_ready ready, State.encipher_refused noResult]
  · show execChar c s = _
    simp only [execChar, State.whenReady_ready ready, letter, State.encipher_refused noResult]

end Sys2Proof.Machine
end

section
/-! The substitution of a letter under INV (40_rotor.md R73, 42_signal_path.md R91, R92, R95): the backward pass inverts
the forward pass, so the path of a letter has a result, and the result is another letter. -/
namespace Sys2Proof.Machine

/-- On a permutation BWD is the inverse of FWD. -/
theorem Rotor.bwd_eq_some_iff_fwd {r : Rotor} (perm : TableIsPerm r.wiring) (x y : Sym) :
    Rotor.bwd r x = some y ↔ Rotor.fwd r y = x := by
  rw [Rotor.bwd_eq_some_iff, Rotor.fwd]
  constructor
  · rintro ⟨j, hj, rfl⟩
    rw [mod26_sub_add_cancel]
    exact ((tabFind_eq_some_iff ..).1 hj).1
  · intro h
    obtain ⟨a, -, unique⟩ := perm x
    have only : ∀ b, tabRead r.wiring b = x → b = mod26 (y.val + r.pos.val) :=
      fun b hb => (unique b hb).trans (unique _ h).symm
    exact ⟨_, (tabFind_eq_some_iff ..).2 ⟨h, only⟩, mod26_add_sub_cancel y r.pos⟩

theorem Rotor.exists_bwd {r : Rotor} (perm : TableIsPerm r.wiring) (x : Sym) : ∃ y, Rotor.bwd r x = some y := by
  obtain ⟨j, hj⟩ := tabFind_of_perm perm x
  exact ⟨_, (Rotor.bwd_eq_some_iff r x _).2 ⟨j, hj, rfl⟩⟩

/-- On a stack of permutations the backward pass is the inverse of the forward pass. -/
theorem backwardPass_eq_some_iff {rs : List Rotor} (perms : ∀ r ∈ rs, TableIsPerm r.wiring) (x y : Sym) :
    backwardPass rs x = some y ↔ forwardPass rs y = x := by
  induction rs generalizing x with
  | nil => simp [backwardPass, eq_comm]
  | cons r rs ih =>
    obtain ⟨perm, perms⟩ := List.forall_mem_cons.1 perms
    simp [backwardPass_cons_eq_some_iff, Rotor.bwd_eq_some_iff_fwd perm, ih perms]

theorem exists_backwardPass {rs : List Rotor} (perms : ∀ r ∈ rs, TableIsPerm r.wiring) (x : Sym) :
    ∃ y, backwardPass rs x = some y := by
  induction rs generalizing x with
  | nil => exact ⟨x, rfl⟩
  | cons r rs ih =>
    obtain ⟨perm, perms⟩ := List.forall_mem_cons.1 perms
    obtain ⟨z, hz⟩ := Rotor.exists_bwd perm x
    obtain ⟨y, hy⟩ := ih perms z
    exact ⟨y, (backwardPass_cons_eq_some_iff ..).2 ⟨z, hz, hy⟩⟩

theorem signalPath_eq_some_iff {rs : List Rotor} (perms : ∀ r ∈ rs, TableIsPerm r.wiring) (U : Table) (i y : Sym) :
    signalPath rs U i = some y ↔ forwardPass rs y = tabRead U (forwardPass rs i) :=
  backwardPass_eq_some_iff perms _ y

theorem signalPath_ne {rs : List Rotor} {U : Table} {i y : Sym} (perms : ∀ r ∈ rs, TableIsPerm r.wiring)
    (reflector : TableIsReflector U) (h : signalPath rs U i = some y) : y ≠ i := by
  rintro rfl
  exact (reflector _).2 ((signalPath_eq_some_iff perms U y y).1 h).symm

theorem State.Inv.stepAll {s : State} (inv : s.Inv) : s.stepAll.Inv :=
  inv.of_moves (.map_step s.rotors) s.outbox none

/-- Under INV the path of a letter at the stepped positions has a result, another letter. -/
theorem State.Inv.exists_signalPath {s : State} (inv : s.Inv) (ready : s.mode = .ready) (i : Sym) :
    ∃ y, signalPath (s.rotors.map Rotor.step) s.refl i = some y ∧ y ≠ i := by
  obtain ⟨-, perms, -, reflector, -⟩ := inv.stepAll ready
  obtain ⟨y, hy⟩ := exists_backwardPass perms (tabRead s.refl (forwardPass (s.rotors.map Rotor.step) i))
  exact ⟨y, hy, signalPath_ne perms reflector hy⟩

end Sys2Proof.Machine
end

section
/-! The output stream (20_memory.md R41): CHAR alone writes it, one character each time, and under INV a message gives
one character for each of its own. -/
namespace Sys2Proof.Machine

theorem execChar_outbox {s t : State} {c : CharW} (h : execChar c s = .next t) :
    ∃ d, t.outbox = s.outbox ++ [d] := by
  obtain ⟨-, ⟨-, rfl⟩ | ⟨i, y, -, -, rfl⟩⟩ := execChar_eq_next.1 h
  · exact ⟨c, rfl⟩
  · exact ⟨charOfSym y, rfl⟩

theorem exec_outbox_of_ne_char {s t : State} {i : Instr} (hi : ∀ c, i ≠ .char c) (h : exec i s = .next t) :
    t.outbox = s.outbox := by
  cases i with
  | char c => exact absurd rfl (hi c)
  | config rec => obtain ⟨-, ⟨rs, U, -, rfl⟩ | ⟨e, -, rfl⟩⟩ := execConfig_eq_next.1 h <;> rfl
  | enc x => obtain ⟨-, y, -, rfl⟩ := execEnc_eq_next.1 h; rfl
  | encL x => obtain ⟨-, y, -, rfl⟩ := execEncL_eq_next.1 h; rfl
  | pass c => obtain ⟨-, -, rfl⟩ := execPass_eq_next.1 h; rfl
  | stepAll => obtain ⟨-, rfl⟩ := execStepAll_eq_next.1 h; rfl
  | step k => obtain ⟨-, r, -, rfl⟩ := execStep_eq_next.1 h; rfl
  | fwd k x => obtain ⟨-, r, -, rfl⟩ := execFwd_eq_next.1 h; rfl
  | refl x => obtain ⟨-, rfl⟩ := execRefl_eq_next.1 h; rfl
  | bwd k x => obtain ⟨-, r, -, y, -, rfl⟩ := execBwd_eq_next.1 h; rfl
  | bypass c => obtain ⟨-, rfl⟩ := execBypass_eq_next.1 h; rfl

/-- Settles O60: a completed CHAR has emitted once, and every other operation leaves the output stream. -/
theorem onlyCharEmitsAndOnlyOne : Obligations.OnlyCharEmitsAndOnlyOne := by
  intro s t i h
  by_cases hi : ∃ c, i = .char c
  · obtain ⟨c, rfl⟩ := hi
    obtain ⟨d, hd⟩ := execChar_outbox h
    exact .inl ⟨c, d, rfl, hd⟩
  · have other : ∀ c, i ≠ .char c := not_exists.1 hi
    exact .inr ⟨other, exec_outbox_of_ne_char other h⟩

/-- What may be emitted for a character: itself if it is no letter, and for a letter the capital of another one
(42_signal_path.md R94, R95). -/
def EmittedFor (c d : CharW) : Prop :=
  (symOfChar c = none → d = c) ∧ ∀ i, symOfChar c = some i → ∃ y, d = charOfSym y ∧ y ≠ i

theorem EmittedFor.of_not_letter {c : CharW} (h : symOfChar c = none) : EmittedFor c c :=
  ⟨fun _ => rfl, fun i letter => by simp [h] at letter⟩

theorem EmittedFor.of_letter {c : CharW} {i y : Sym} (h : symOfChar c = some i) (hy : y ≠ i) :
    EmittedFor c (charOfSym y) := by
  refine ⟨fun noLetter => by simp [h] at noLetter, fun j letter => ⟨y, rfl, ?_⟩⟩
  obtain rfl : i = j := Option.some.inj (h.symm.trans letter)
  exact hy

theorem execChar_completes {s : State} (ready : s.mode = .ready) (inv : s.Inv) (c : CharW) :
    ∃ t d, execChar c s = .next t ∧ t.outbox = s.outbox ++ [d] ∧ EmittedFor c d := by
  cases letter : symOfChar c with
  | none => exact ⟨s.emit c, c, execChar_eq_next.2 ⟨ready, .inl ⟨letter, rfl⟩⟩, rfl, .of_not_letter letter⟩
  | some i =>
    obtain ⟨y, path, other⟩ := inv.exists_signalPath ready i
    exact ⟨s.stepAll.emit (charOfSym y), charOfSym y, execChar_eq_next.2 ⟨ready, .inr ⟨i, y, letter, path, rfl⟩⟩, rfl,
      .of_letter letter other⟩

theorem execChar_preserves_ready {s t : State} {c : CharW} (h : execChar c s = .next t) : t.mode = .ready := by
  obtain ⟨ready, ⟨-, rfl⟩ | ⟨i, y, -, -, rfl⟩⟩ := execChar_eq_next.1 h <;> exact ready

/-- Under INV a message completes, still READY under INV, and what it emits corresponds to it character by
character. -/
theorem process_completes {s : State} (ready : s.mode = .ready) (inv : s.Inv) (m : List CharW) :
    ∃ t out, process m s = .next t ∧ t.mode = .ready ∧ t.Inv ∧ t.outbox = s.outbox ++ out ∧
      List.Forall₂ EmittedFor m out := by
  induction m generalizing s with
  | nil => exact ⟨s, [], rfl, ready, inv, by simp, .nil⟩
  | cons c m ih =>
    obtain ⟨u, d, head, hd, emitted⟩ := execChar_completes ready inv c
    have invU : u.Inv := exec_preserves_inv (i := .char c) inv head
    obtain ⟨t, out, tail, readyT, invT, hout, rest⟩ := ih (execChar_preserves_ready head) invU
    exact ⟨t, d :: out, process_cons_eq_next.2 ⟨u, head, tail⟩, readyT, invT, by simp [hout, hd], .cons emitted rest⟩

theorem exists_getElem?_of_forall₂ {α β : Type} {R : α → β → Prop} {xs : List α} {ys : List β}
    (h : List.Forall₂ R xs ys) {j : Nat} {x : α} (hx : xs[j]? = some x) : ∃ y, ys[j]? = some y ∧ R x y := by
  obtain ⟨hj, rfl⟩ := List.getElem?_eq_some_iff.1 hx
  have hj' : j < ys.length := h.length_eq ▸ hj
  exact ⟨ys[j], List.getElem?_eq_getElem hj', h.get hj hj'⟩

/-- Settles O40: the output corresponds to the message character by character, so it does so at every place. -/
theorem oneOutputPerInput : Obligations.OneOutputPerInput := by
  intro s m ready inv
  obtain ⟨t, out, h, -, -, hout, corresponds⟩ := process_completes ready inv m
  refine ⟨t, out, h, hout, corresponds.length_eq.symm, fun j c hc => ?_⟩
  obtain ⟨d, hd, notLetter, letter⟩ := exists_getElem?_of_forall₂ corresponds hc
  refine ⟨fun hn => notLetter hn ▸ hd, fun i hi => ?_⟩
  obtain ⟨y, rfl, other⟩ := letter i hi
  exact ⟨y, hd, other⟩

end Sys2Proof.Machine
end

section
/-! Character words (30_encoding.md R47 to R49, R55): the two fields of a word, its class and its ordinal, say which
letter it is, if any. -/
namespace Sys2Proof

/-! ## Symbols -/

/-- Settles O13: classification tells the two ranges of letters and the rest apart. -/
theorem symbolOfCharacter : Obligations.SymbolOfCharacter := by
  intro c
  unfold symOfChar classify
  split_ifs <;> rfl

@[simp] theorem symOfChar_charOfSym (i : Sym) : symOfChar (charOfSym i) = some i := by
  rw [symOfChar, classify_charOfSym, CharClass.sym]

/-- A character is no letter exactly when it carries no symbol. -/
theorem classify_notLetter_iff (c : CharW) : classify c = .notLetter ↔ symOfChar c = none := by
  rw [symOfChar]
  cases classify c <;> simp [CharClass.sym]

/-! ## Fields -/

theorem clsOf_toNat (c : CharW) : (clsOf c).toNat = c.toNat / 32 := by
  rw [clsOf, BitVec.extractLsb'_toNat, Nat.shiftRight_eq_div_pow]
  omega

theorem ordOf_toNat (c : CharW) : (ordOf c).toNat = c.toNat % 32 := by
  rw [ordOf, BitVec.extractLsb'_toNat, Nat.shiftRight_zero]

/-- A character is the capital letter number `i` exactly when its class is 010 and its ordinal `i + 1`. -/
theorem classify_capital_iff_fields (c : CharW) (i : Sym) :
    classify c = .capital i ↔ clsOf c = 0b010#3 ∧ (ordOf c).toNat = i.val + 1 := by
  rw [classify_capital_iff, ← BitVec.toNat_inj, clsOf_toNat, ordOf_toNat, BitVec.toNat_ofNat]
  omega

/-- A character is the small letter number `i` exactly when its class is 011 and its ordinal `i + 1`. -/
theorem classify_small_iff_fields (c : CharW) (i : Sym) :
    classify c = .small i ↔ clsOf c = 0b011#3 ∧ (ordOf c).toNat = i.val + 1 := by
  rw [classify_small_iff, ← BitVec.toNat_inj, clsOf_toNat, ordOf_toNat, BitVec.toNat_ofNat]
  omega

theorem charOfSym_eq_of_capital {c : CharW} {i : Sym} (h : symOfChar c = some i) (capital : c.toNat ≤ 0x5A) :
    charOfSym i = c := by
  have code := (symOfChar_eq_some_iff c i).1 h
  refine BitVec.eq_of_toNat_eq ?_
  rw [charOfSym_toNat]
  omega

theorem charOfSym_eq_sub_of_small {c : CharW} {i : Sym} (h : symOfChar c = some i) (small : 0x61 ≤ c.toNat) :
    charOfSym i = c - 0x20#8 := by
  have code := (symOfChar_eq_some_iff c i).1 h
  refine BitVec.eq_of_toNat_eq ?_
  rw [charOfSym_toNat, BitVec.toNat_sub, BitVec.toNat_ofNat]
  omega

/-- Settles O14: the capital of a symbol is classified as that capital, whose fields are known; a letter of the symbol
is its capital or lies 0x20 above it. -/
theorem characterOfSymbol : Obligations.CharacterOfSymbol := by
  refine ⟨fun i => ?_, fun c i h => ⟨charOfSym_eq_of_capital h, charOfSym_eq_sub_of_small h⟩⟩
  have fields := (classify_capital_iff_fields _ i).1 (classify_charOfSym i)
  exact ⟨charOfSym_toNat i, symOfChar_charOfSym i, fields⟩

/-! ## Decoding a character -/

theorem decodeChar_of_capital {c : CharW} {i : Sym} (h : classify c = .capital i) : decodeChar c = .enc i := by
  rw [decodeChar, h]

theorem decodeChar_of_small {c : CharW} {i : Sym} (h : classify c = .small i) : decodeChar c = .encL i := by
  rw [decodeChar, h]

theorem decodeChar_of_notLetter {c : CharW} (h : classify c = .notLetter) : decodeChar c = .pass c := by
  rw [decodeChar, h]

/-- Settles O15: the fields of each of the two letter classes name the letter, and a character outside both is none. -/
theorem characterSelects : Obligations.CharacterSelects := by
  intro c
  split_ifs with capital small
  · obtain ⟨cls, one, -⟩ := capital
    exact decodeChar_of_capital ((classify_capital_iff_fields c _).2 ⟨cls, (Nat.sub_add_cancel one).symm⟩)
  · obtain ⟨cls, one, -⟩ := small
    exact decodeChar_of_small ((classify_small_iff_fields c _).2 ⟨cls, (Nat.sub_add_cancel one).symm⟩)
  · cases hc : classify c with
    | capital i =>
      obtain ⟨cls, ord⟩ := (classify_capital_iff_fields c i).1 hc
      exact absurd ⟨cls, by omega, by omega⟩ capital
    | small i =>
      obtain ⟨cls, ord⟩ := (classify_small_iff_fields c i).1 hc
      exact absurd ⟨cls, by omega, by omega⟩ small
    | notLetter => exact decodeChar_of_notLetter hc

end Sys2Proof
end

section
/-! The decoder (30_encoding.md R53 to R56): it gives every well-formed operation back from its words, and refuses the
symbol words that are no symbols and nothing else. -/
namespace Sys2Proof

/-! ## What is decoded -/

theorem decodeStage_wordOfSym {sel : BitVec 2} (path : sel ≠ 0b11#2) (k : Nat) (x : Sym) (c : CharW) :
    decodeStage sel k (wordOfSym x) c = .ok (decodeSelect sel k x) := by
  simp only [decodeStage, if_neg path, symOfWord_wordOfSym]

/-- Settles O10, row by row: a letter's character word has that letter's class, the symbol word of a path selection is
its symbol's, and the other rows carry their operand as it is. -/
theorem decodeOfEncode : Obligations.DecodeOfEncode := by
  intro i wellFormed
  cases i with
  | enc x => exact congrArg Except.ok (decodeChar_of_capital (classify_charOfSym x))
  | encL x => exact congrArg Except.ok (decodeChar_of_small (classify_smallOfSym x))
  | pass c =>
    have notLetter := (classify_notLetter_iff c).2 (Option.isNone_iff_eq_none.1 wellFormed)
    exact congrArg Except.ok (decodeChar_of_notLetter notLetter)
  | fwd k x => exact decodeStage_wordOfSym (by decide) k x _
  | refl x => exact decodeStage_wordOfSym (by decide) 0 x _
  | bwd k x => exact decodeStage_wordOfSym (by decide) k x _
  | config | char | stepAll | step | bypass => rfl

/-- Settles O12: each of the ten words is what its operation is encoded as. -/
theorem wordsOfTheSpecDecode : Obligations.WordsOfTheSpecDecode :=
  ⟨decodeOfEncode (.enc 0) rfl, decodeOfEncode (.enc 25) rfl, decodeOfEncode (.encL 0) rfl,
   decodeOfEncode (.pass 0x2C#8) rfl, decodeOfEncode (.char 0x41#8) rfl, decodeOfEncode (.config emptyRecord) rfl,
   decodeOfEncode (.fwd 2 3) rfl, decodeOfEncode (.refl 15) rfl, decodeOfEncode (.bwd 1 20) rfl,
   decodeOfEncode (.bypass 0x20#8) rfl⟩

/-! ## What is refused -/

theorem decodeStage_eq_error_iff {sel : BitVec 2} {k : Nat} {w : SymW} {c : CharW} {e : DecodeError} :
    decodeStage sel k w c = .error e ↔ sel ≠ 0b11#2 ∧ 26 ≤ w.toNat ∧ e = .notASymbol w := by
  rw [← symOfWord_eq_none_iff, decodeStage]
  split_ifs with bypass
  · simp [bypass]
  · cases symOfWord w <;> simp [bypass, eq_comm]

theorem decode_eq_error_iff {raw : Raw} {e : DecodeError} :
    decode raw = .error e ↔ ∃ sel k w c,
      raw = .stage sel k w c ∧ sel ≠ 0b11#2 ∧ 26 ≤ w.toNat ∧ e = .notASymbol w := by
  cases raw with
  | transaction cmd c rec => simp [decode]
  | character c => simp [decode]
  | stage sel k w c =>
    rw [decode, decodeStage_eq_error_iff]
    constructor
    · exact fun refused => ⟨sel, k, w, c, rfl, refused⟩
    · rintro ⟨_, _, _, _, ⟨⟩, refused⟩
      exact refused
  | stepping k => cases k <;> simp [decode]

/-- Settles O11: a refusal names the symbol word, which is no symbol. -/
theorem decodeRefusesExactlyNonSymbols : Obligations.DecodeRefusesExactlyNonSymbols := by
  intro raw
  constructor
  · rintro ⟨e, h⟩
    obtain ⟨sel, k, w, c, hraw, path, noSymbol, -⟩ := decode_eq_error_iff.1 h
    exact ⟨sel, k, w, c, hraw, path, noSymbol⟩
  · rintro ⟨sel, k, w, c, hraw, path, noSymbol⟩
    exact ⟨.notASymbol w, decode_eq_error_iff.2 ⟨sel, k, w, c, hraw, path, noSymbol, rfl⟩⟩

end Sys2Proof
end

section
/-! Steps that run no operation (20_memory.md R38, 30_encoding.md R46): nothing presented, and words that decode to
none. -/
namespace Sys2Proof.Machine

theorem step_of_inbox_nil {s : State} (h : s.inbox = []) : step s = .next s := by
  rw [step, State.take_eq_none_iff.2 h]

theorem step_of_decode_error {s : State} {raw : Raw} {rest : List Event} {w : SymW}
    (inbox : s.inbox = .op raw :: rest) (refused : decode raw = .error (.notASymbol w)) :
    step s = .refused (.notASymbol w) := by
  have taken : s.take = some (.op raw, { s with inbox := rest }) := State.take_eq_some_iff.2 ⟨rest, inbox, rfl⟩
  simp only [step, taken, refused]

/-- Settles O3: an empty inbox has no event to take, and the decoder's refusal is the step's. -/
theorem stepIdlesOrRefusesNonSymbols : Obligations.StepIdlesOrRefusesNonSymbols :=
  ⟨fun _ => step_of_inbox_nil, fun _ _ sel k w c inbox path noSymbol =>
    step_of_decode_error inbox (decode_eq_error_iff.2 ⟨sel, k, w, c, rfl, path, noSymbol, rfl⟩)⟩

end Sys2Proof.Machine
end

section
/-! The pseudo-operations (30_encoding.md R59): a message is a sequence of CHARs, RESET and SETPOS are one CONFIG
each. -/
namespace Sys2Proof.Machine

theorem execAll_singleton (i : Instr) (s : State) : execAll [i] s = exec i s := by
  rw [execAll]
  cases exec i s <;> rfl

theorem execAll_map_char (m : List CharW) (s : State) : execAll (m.map .char) s = process m s := by
  induction m generalizing s with
  | nil => rfl
  | cons c m ih =>
    show execAll (.char c :: m.map .char) s = process (c :: m) s
    simp only [execAll, process, exec]
    cases execChar c s <;> simp only [ih]

theorem map_wiring_withPositions {rec : Record} {ps : List Int} (h : ps.length = rec.rotors.length) :
    (rec.withPositions ps).rotors.map RotorCfg.wiring = rec.rotors.map RotorCfg.wiring :=
  List.ext_getElem (by simp [Record.withPositions, h]) (by simp [Record.withPositions])

theorem map_pos_withPositions {rec : Record} {ps : List Int} (h : ps.length = rec.rotors.length) :
    (rec.withPositions ps).rotors.map RotorCfg.pos = ps :=
  List.ext_getElem (by simp [Record.withPositions, h]) (by simp [Record.withPositions])

/-- Settles O16: the three transforms expand to the CHARs of the message, and a configuration expands to one operation,
for SETPOS on the record with each position replaced by its new one. -/
theorem pseudoOperationsExpand : Obligations.PseudoOperationsExpand := by
  intro m rec ps s
  have chars := execAll_map_char m s
  exact ⟨chars, chars, chars, execAll_singleton _ s, fun h =>
    ⟨rec.withPositions ps, execAll_singleton _ s, rfl, map_wiring_withPositions h, map_pos_withPositions h⟩⟩

end Sys2Proof.Machine
end

section
/-! Stepping (40_rotor.md R67, R68, R72): a rotor stepped `n` times has its position advanced by `n` modulo 26, and any
sequence of STEPs moves each rotor as often as its number occurs in it, whatever the order. -/
namespace Sys2Proof.Machine

/-! ## One rotor -/

theorem Rotor.step_iterate (n : Nat) (r : Rotor) : Rotor.step^[n] r = { r with pos := mod26 (r.pos.val + n) } := by
  induction n with
  | zero => simp
  | succ n ih => simp [Function.iterate_succ_apply', ih, Rotor.step, Int.add_assoc]

/-- The period of a position register (40_rotor.md R67). -/
theorem Rotor.step_iterate_26 : Rotor.step^[26] = id := by
  funext r
  have returns : mod26 (r.pos.val + (26 : Nat)) = r.pos := by rw [mod26_eq_iff]; omega
  rw [Rotor.step_iterate, returns, id]

/-! ## STEP -/

theorem exec_step_of_getElem? {s : State} {k : Nat} {r : Rotor} (ready : s.mode = .ready)
    (hr : s.rotors[k]? = some r) : exec (.step k) s = .next (s.stepRotor k r) :=
  execStep_eq_next.2 ⟨ready, r, hr, rfl⟩

theorem State.stepRotor_getElem? {s : State} {k : Nat} {r : Rotor} (hr : s.rotors[k]? = some r) (j : Nat) :
    (s.stepRotor k r).rotors[j]? = if k = j then some (Rotor.step r) else s.rotors[j]? := by
  have inRange : k < s.rotors.length := (List.getElem?_eq_some_iff.1 hr).1
  rw [State.stepRotor_rotors, List.getElem?_set, if_pos inRange]

/-- STEPs of rotors that are present complete, and step each rotor as often as its number occurs among them. -/
theorem execAll_steps {s : State} {ks : List Nat} (ready : s.mode = .ready) (present : ∀ k ∈ ks, k < s.n) :
    ∃ t, execAll (ks.map .step) s = .next t ∧
      ∀ j, t.rotors[j]? = s.rotors[j]?.map Rotor.step^[ks.count j] := by
  induction ks generalizing s with
  | nil => exact ⟨s, rfl, by simp⟩
  | cons k ks ih =>
    obtain ⟨inRange, present⟩ := List.forall_mem_cons.1 present
    have hr : s.rotors[k]? = some s.rotors[k] := List.getElem?_eq_getElem inRange
    obtain ⟨t, tail, moved⟩ := ih (s := s.stepRotor k s.rotors[k]) ready (by simpa using present)
    refine ⟨t, execAll_cons_eq_next.2 ⟨_, exec_step_of_getElem? ready hr, tail⟩, fun j => ?_⟩
    rw [moved, State.stepRotor_getElem? hr]
    by_cases same : k = j
    · subst same
      simp [hr]
    · simp [same, List.count_cons_of_ne]

/-- Settles O18: one STEP replaces the one rotor, and 26 are a sequence of STEPs in which its number occurs a full
period and no other number occurs. -/
theorem stepAdvancesOneRotor : Obligations.StepAdvancesOneRotor := by
  intro s k r ready hr
  refine ⟨⟨_, exec_step_of_getElem? ready hr, rfl, ?_, fun j other => ?_⟩, ?_⟩
  · rw [State.stepRotor_getElem? hr, if_pos rfl, Rotor.step]
  · rw [State.stepRotor_getElem? hr, if_neg other.symm]
  · have present : ∀ i ∈ List.replicate 26 k, i < s.n := fun i hi =>
      List.eq_of_mem_replicate hi ▸ (List.getElem?_eq_some_iff.1 hr).1
    obtain ⟨u, hu, moved⟩ := execAll_steps ready present
    rw [List.map_replicate] at hu
    refine ⟨u, hu, List.ext_getElem? fun j => ?_⟩
    rw [moved, List.count_replicate]
    split
    · rw [Rotor.step_iterate_26, Option.map_id, id]
    · rw [Function.iterate_zero, Option.map_id, id]

/-! ## STEPALL -/

theorem exec_stepAll {s : State} (ready : s.mode = .ready) : exec .stepAll s = .next s.stepAll :=
  execStepAll_eq_next.2 ⟨ready, rfl⟩

/-- Settles O19: the stack is mapped by the step of one rotor. -/
theorem stepAllAdvancesEveryRotor : Obligations.StepAllAdvancesEveryRotor := by
  intro s ready
  refine ⟨s.stepAll, exec_stepAll ready, rfl, s.stepAll_n, fun k r hr => ?_⟩
  rw [State.stepAll_rotors, List.getElem?_map, hr, Option.map_some, Rotor.step]

/-- Settles O20: in an ordering of the rotor numbers each occurs once, so the STEPs step each rotor once. -/
theorem stepAllIsStepsInAnyOrder : Obligations.StepAllIsStepsInAnyOrder := by
  intro s ks ready order
  have present : ∀ k ∈ ks, k < s.n := fun k hk => List.mem_range.1 (order.mem_iff.1 hk)
  obtain ⟨t, ht, moved⟩ := execAll_steps ready present
  refine ⟨t, s.stepAll, ht, exec_stepAll ready, List.ext_getElem? fun j => ?_⟩
  rw [moved, State.stepAll_rotors, List.getElem?_map]
  by_cases inRange : j < s.n
  · have once : ks.count j = 1 :=
      (order.count_eq j).trans (List.count_eq_one_of_mem List.nodup_range (List.mem_range.2 inRange))
    rw [once, Function.iterate_one]
  · rw [List.getElem?_eq_none (Nat.not_lt.1 inRange), Option.map_none, Option.map_none]

end Sys2Proof.Machine
end

section
/-! The lookups of one rotor (40_rotor.md R69, R70, R73, R75): what FWD and BWD return, that each undoes the other on a
table that is a permutation, and that a rotor number of N or more is refused. -/
namespace Sys2Proof.Machine

theorem exec_fwd_of_getElem? {s : State} {k : Nat} {r : Rotor} (ready : s.mode = .ready)
    (hr : s.rotors[k]? = some r) (i : Sym) : exec (.fwd k i) s = .next (s.returns (.sym (Rotor.fwd r i))) :=
  execFwd_eq_next.2 ⟨ready, r, hr, rfl⟩

theorem exec_bwd_of_getElem? {s : State} {k : Nat} {r : Rotor} {x y : Sym} (ready : s.mode = .ready)
    (hr : s.rotors[k]? = some r) (hy : Rotor.bwd r x = some y) : exec (.bwd k x) s = .next (s.returns (.sym y)) :=
  execBwd_eq_next.2 ⟨ready, r, hr, y, hy, rfl⟩

/-- Settles O21: what FWD returns is the rotor's entry at the shifted index. -/
theorem fwdLooksUpTheShiftedIndex : Obligations.FwdLooksUpTheShiftedIndex :=
  fun _ _ _ i ready hr => exec_fwd_of_getElem? ready hr i

/-- Settles O22: the one index that holds the symbol is what TabFind answers. -/
theorem bwdFindsThenShiftsBack : Obligations.BwdFindsThenShiftsBack := by
  intro s k r x ready hr perm
  obtain ⟨j, hj, unique⟩ := perm x
  have answer : tabFind r.wiring x = some j := (tabFind_eq_some_iff ..).2 ⟨hj, unique⟩
  exact ⟨j, hj, unique, exec_bwd_of_getElem? ready hr ((Rotor.bwd_eq_some_iff ..).2 ⟨j, answer, rfl⟩)⟩

/-- Settles O25: neither lookup moves a rotor, and on a permutation BWD is the inverse of FWD. -/
theorem rotorInverseLaw : Obligations.RotorInverseLaw := by
  intro s k r x ready hr perm
  constructor
  · have back : Rotor.bwd r (Rotor.fwd r x) = some x := (Rotor.bwd_eq_some_iff_fwd perm _ _).2 rfl
    exact ⟨_, _, _, exec_fwd_of_getElem? ready hr x, rfl, exec_bwd_of_getElem? ready hr back, rfl⟩
  · obtain ⟨y, hy⟩ := Rotor.exists_bwd perm x
    have forth : Rotor.fwd r y = x := (Rotor.bwd_eq_some_iff_fwd perm x y).1 hy
    exact ⟨_, y, _, exec_bwd_of_getElem? ready hr hy, rfl, exec_fwd_of_getElem? ready hr y,
      congrArg (fun z => some (Ret.sym z)) forth⟩

theorem exec_fwd_returns_iff {s : State} {k : Nat} {r : Rotor} (ready : s.mode = .ready)
    (hr : s.rotors[k]? = some r) (i y : Sym) :
    exec (.fwd k i) s = .next (s.returns (.sym y)) ↔ Rotor.fwd r i = y := by
  rw [exec_fwd_of_getElem? ready hr]
  constructor
  · intro h
    have rets : some (Ret.sym (Rotor.fwd r i)) = some (Ret.sym y) := congrArg State.ret (Host.Outcome.next.inj h)
    exact Ret.sym.inj (Option.some.inj rets)
  · rintro rfl
    rfl

/-- Settles O26: the operand for which FWD returns a symbol is what BWD answers for that symbol. -/
theorem fwdIsAPermutation : Obligations.FwdIsAPermutation := by
  intro s k r y ready hr perm
  obtain ⟨i, hi⟩ := Rotor.exists_bwd perm y
  refine ⟨i, (exec_fwd_returns_iff ready hr i y).2 ((Rotor.bwd_eq_some_iff_fwd perm y i).1 hi), fun i' h => ?_⟩
  have forth : Rotor.fwd r i' = y := (exec_fwd_returns_iff ready hr i' y).1 h
  have hi' : Rotor.bwd r y = some i' := (Rotor.bwd_eq_some_iff_fwd perm y i').2 forth
  exact Option.some.inj (hi'.symm.trans hi)

theorem State.withRotor_of_n_le {s : State} {k : Nat} (outOfRange : s.n ≤ k)
    (f : Rotor → Host.Outcome State Fault Refusal) : s.withRotor k f = .refused (.noSuchRotor k) := by
  simp only [State.withRotor, List.getElem?_eq_none outOfRange]

/-- Settles O24: all three operations look their rotor up first. -/
theorem rotorNumberOutOfRangeRefused : Obligations.RotorNumberOutOfRangeRefused := by
  intro s k x ready outOfRange
  refine ⟨?_, ?_, ?_⟩
  · show execStep k s = _
    rw [execStep, State.whenReady_ready ready, State.withRotor_of_n_le outOfRange]
  · show execFwd k x s = _
    rw [execFwd, State.whenReady_ready ready, State.withRotor_of_n_le outOfRange]
  · show execBwd k x s = _
    rw [execBwd, State.whenReady_ready ready, State.withRotor_of_n_le outOfRange]

end Sys2Proof.Machine
end

section
/-! The positions after a message (40_rotor.md R74): each letter steps the whole stack once and nothing else moves it,
so all positions advance by the number of letters. -/
namespace Sys2Proof.Machine

theorem letterCount_cons_of_letter {c : CharW} {i : Sym} (letter : symOfChar c = some i) (m : List CharW) :
    letterCount (c :: m) = letterCount m + 1 :=
  List.countP_cons_of_pos (by rw [letter]; rfl)

theorem letterCount_cons_of_not_letter {c : CharW} (notLetter : symOfChar c = none) (m : List CharW) :
    letterCount (c :: m) = letterCount m :=
  List.countP_cons_of_neg (by rw [notLetter]; exact Bool.false_ne_true)

/-- A message steps every rotor once for each of its letters and leaves the reflector. -/
theorem process_rotors_refl {s t : State} {m : List CharW} (h : process m s = .next t) :
    t.rotors = s.rotors.map Rotor.step^[letterCount m] ∧ t.refl = s.refl := by
  induction m generalizing s with
  | nil =>
    obtain rfl : s = t := Host.Outcome.next.inj h
    exact ⟨(List.map_id _).symm, rfl⟩
  | cons c m ih =>
    obtain ⟨u, head, tail⟩ := process_cons_eq_next.1 h
    obtain ⟨moved, kept⟩ := ih tail
    obtain ⟨-, ⟨notLetter, rfl⟩ | ⟨i, y, letter, -, rfl⟩⟩ := execChar_eq_next.1 head
    · rw [letterCount_cons_of_not_letter notLetter]
      exact ⟨moved, kept⟩
    · rw [letterCount_cons_of_letter letter, Function.iterate_succ, ← List.map_map]
      exact ⟨moved, kept⟩

/-- Settles O42: under INV the message completes, and a rotor stepped once for each letter is advanced by their
number. -/
theorem positionsCountLetters : Obligations.PositionsCountLetters := by
  intro s m ready inv
  obtain ⟨t, -, h, -⟩ := process_completes ready inv m
  obtain ⟨moved, kept⟩ := process_rotors_refl h
  refine ⟨t, h, by rw [State.n, State.n, moved, List.length_map], kept, fun k r hr => ?_⟩
  rw [moved, List.getElem?_map, hr, Option.map_some, Rotor.step_iterate]

theorem mod26_add_sub_mod26_add (u v n : Int) :
    mod26 (((mod26 (u + n)).val : Int) - (mod26 (v + n)).val) = mod26 (u - v) := by
  rw [mod26_eq_iff, mod26_val, mod26_val, mod26_val]
  omega

/-- Settles O43: both positions advance by the same number, which cancels in their difference. -/
theorem offsetsBetweenRotorsAreKept : Obligations.OffsetsBetweenRotorsAreKept := by
  intro s m ready inv
  obtain ⟨t, h, -, -, moved⟩ := positionsCountLetters s m ready inv
  have advanced {k : Nat} {p : Sym} (hp : s.pos k = some p) : t.pos k = some (mod26 (p.val + letterCount m)) := by
    obtain ⟨r, hr, rfl⟩ := Option.map_eq_some_iff.1 hp
    exact congrArg (Option.map Rotor.pos) (moved k r hr)
  exact ⟨t, h, fun k k' p p' hp hp' => ⟨_, _, advanced hp, advanced hp', mod26_add_sub_mod26_add ..⟩⟩

end Sys2Proof.Machine
end

section
/-! The lookup of the reflector (41_reflector.md R80, R81): what REFL returns, and that under INV a second REFL undoes
the first, neither of them fixing a symbol. -/
namespace Sys2Proof.Machine

theorem exec_refl {s : State} (ready : s.mode = .ready) (x : Sym) :
    exec (.refl x) s = .next (s.returns (.sym (tabRead s.refl x))) :=
  execRefl_eq_next.2 ⟨ready, rfl⟩

/-- Settles O27: the table is read at the symbol itself, and only the returned value is written. -/
theorem reflLooksUp : Obligations.ReflLooksUp :=
  fun _ x ready => exec_refl ready x

/-- Settles O28: REFL keeps the mode and the table, so the second lookup reads the table that the first one read, which
under INV is an involution without fixed point. -/
theorem reflectorInvolutionLaw : Obligations.ReflectorInvolutionLaw := by
  intro s x ready inv
  obtain ⟨-, -, -, reflector, -⟩ := inv ready
  obtain ⟨back, moved⟩ := reflector x
  have again := exec_refl (s := s.returns (.sym (tabRead s.refl x))) ready (tabRead s.refl x)
  rw [State.returns_refl, back] at again
  exact ⟨_, _, _, exec_refl ready x, rfl, moved, again, rfl⟩

end Sys2Proof.Machine
end

section
/-! The operations on one character (42_signal_path.md R86, R87, R88, R92, R95): PASS and BYPASS return it, ENC and ENC.L
return the result of its path, and CHAR emits it or the capital of that result. -/
namespace Sys2Proof.Machine

/-! ## PASS and BYPASS -/

/-- Settles O29: both operations write the returned value alone. -/
theorem passAndBypassReturnTheCharacter : Obligations.PassAndBypassReturnTheCharacter :=
  fun _ _ ready => ⟨fun notLetter => execPass_eq_next.2 ⟨ready, notLetter, rfl⟩, execBypass_eq_next.2 ⟨ready, rfl⟩⟩

/-- Settles O30: PASS asks first whether its operand is a letter. -/
theorem passOfLetterRefused : Obligations.PassOfLetterRefused := by
  intro s c i ready letter
  show execPass c s = _
  rw [execPass, State.whenReady_ready ready, letter]
  rfl

/-! ## ENC -/

theorem exec_enc_of_signalPath {s : State} {i y : Sym} (ready : s.mode = .ready)
    (path : signalPath (s.rotors.map Rotor.step) s.refl i = some y) :
    exec (.enc i) s = .next (s.stepAll.returns (.sym y)) :=
  execEnc_eq_next.2 ⟨ready, y, path, rfl⟩

theorem exec_encL_of_signalPath {s : State} {i y : Sym} (ready : s.mode = .ready)
    (path : signalPath (s.rotors.map Rotor.step) s.refl i = some y) :
    exec (.encL i) s = .next (s.stepAll.returns (.sym y)) :=
  execEncL_eq_next.2 ⟨ready, y, path, rfl⟩

theorem forwardPass_injective {rs : List Rotor} (perms : ∀ r ∈ rs, TableIsPerm r.wiring) :
    Function.Injective (forwardPass rs) := fun a b same => by
  have toA : backwardPass rs (forwardPass rs a) = some a := (backwardPass_eq_some_iff perms _ _).2 rfl
  have toB : backwardPass rs (forwardPass rs a) = some b := (backwardPass_eq_some_iff perms _ _).2 same.symm
  exact Option.some.inj (toA.symm.trans toB)

/-- At fixed positions the substitution of a letter is undone by itself (42_signal_path.md R92). -/
theorem signalPath_symm {rs : List Rotor} {U : Table} {i y : Sym} (perms : ∀ r ∈ rs, TableIsPerm r.wiring)
    (reflector : TableIsReflector U) (h : signalPath rs U i = some y) : signalPath rs U y = some i := by
  rw [signalPath_eq_some_iff perms] at h ⊢
  rw [h, (reflector _).1]

/-- Settles O33: the forward pass is injective on a finite alphabet, the path is the reflector conjugated by it, and two
ENCs from one state traverse the path at the same positions. -/
theorem letterReciprocity : Obligations.LetterReciprocity := by
  intro s i ready inv
  obtain ⟨y, path, other⟩ := inv.exists_signalPath ready i
  obtain ⟨-, perms, -, reflector, -⟩ := inv.stepAll ready
  exact ⟨_, y, _, exec_enc_of_signalPath ready path, rfl, Finite.injective_iff_bijective.1 (forwardPass_injective perms),
    (signalPath_eq_some_iff perms _ _ _).1 path, other,
    exec_enc_of_signalPath ready (signalPath_symm perms reflector path), rfl, rfl⟩

/-! ## CHAR -/

/-- Settles O34: CHAR emits a non-letter as it is, and for a letter the result of the path that ENC traverses. -/
theorem charTransformsOneCharacter : Obligations.CharTransformsOneCharacter := by
  refine fun s c => ⟨fun mode => State.whenReady_unconfigured mode _, fun ready notLetter => ?_,
    fun i ready inv letter => ?_⟩
  · exact execChar_eq_next.2 ⟨ready, .inl ⟨notLetter, rfl⟩⟩
  · obtain ⟨y, path, -⟩ := inv.exists_signalPath ready i
    exact ⟨_, y, exec_enc_of_signalPath ready path, rfl, execChar_eq_next.2 ⟨ready, .inr ⟨i, y, letter, path, rfl⟩⟩⟩

theorem charOfSym_injective : Function.Injective charOfSym := fun a b same =>
  Option.some.inj (by rw [← symOfChar_charOfSym a, same, symOfChar_charOfSym])

/-- Settles O35: CHAR emits the capital of what ENC returns, which is another symbol. -/
theorem noLetterEnciphersToItself : Obligations.NoLetterEnciphersToItself := by
  intro s c i ready inv letter
  obtain ⟨-, -, enciphers⟩ := charTransformsOneCharacter s c
  obtain ⟨t, y, enc, ret, char⟩ := enciphers i ready inv letter
  obtain ⟨t', y', -, enc', ret', -, -, other, -⟩ := letterReciprocity s i ready inv
  obtain rfl : t = t' := Host.Outcome.next.inj (enc.symm.trans enc')
  obtain rfl : y = y' := Ret.sym.inj (Option.some.inj (ret.symm.trans ret'))
  exact ⟨⟨_, charOfSym y, char, rfl, charOfSym_injective.ne other⟩, t, y, enc, ret, other⟩

end Sys2Proof.Machine
end

section
/-! The stage schedule (42_signal_path.md R85, R86): the stages before stage `n` are the forward pass, stage `n` is the
reflector, and the stages after it are the backward pass. No stage changes what a later one reads. -/
namespace Sys2Proof.Machine

/-! ## One stage -/

theorem stageInstr_of_lt {n t : Nat} (h : t < n) (x : Sym) : stageInstr n t x = .fwd (n - 1 - t) x :=
  if_pos h

theorem stageInstr_self (n : Nat) (x : Sym) : stageInstr n n x = .refl x := by
  rw [stageInstr, if_neg n.lt_irrefl, if_pos rfl]

theorem stageInstr_of_gt {n t : Nat} (h : n < t) (x : Sym) : stageInstr n t x = .bwd (t - n - 1) x := by
  rw [stageInstr, if_neg h.not_gt, if_neg h.ne']

/-- Settles O32: the stage numbers of either machine, case by case. -/
theorem stageScheduleOrder : Obligations.StageScheduleOrder :=
  fun _ => ⟨rfl, rfl⟩

theorem exec_stageInstr_returns (n t : Nat) (x : Sym) (s : State) (v : Ret) :
    exec (stageInstr n t x) (s.returns v) = exec (stageInstr n t x) s := by
  unfold stageInstr
  split_ifs <;> rfl

theorem runStages_returns (n : Nat) (ts : List Nat) (x : Sym) (s : State) (v : Ret) :
    runStages n ts x (s.returns v) = runStages n ts x s := by
  cases ts with
  | nil => rfl
  | cons t ts => rw [runStages, exec_stageInstr_returns, runStages]

/-- A stage that returns a symbol hands it to the stages after it. -/
theorem runStages_cons_of_exec {n t : Nat} {x y : Sym} {s : State}
    (h : exec (stageInstr n t x) s = .next (s.returns (.sym y))) (ts : List Nat) :
    runStages n (t :: ts) x s = runStages n ts y s := by
  rw [runStages, h]
  exact runStages_returns n ts y s _

/-! ## The three parts of the path -/

theorem forwardPass_take_succ {rs : List Rotor} {k : Nat} {r : Rotor} (hr : rs[k]? = some r) (x : Sym) :
    forwardPass (rs.take (k + 1)) x = forwardPass (rs.take k) (Rotor.fwd r x) := by
  rw [List.take_add_one, hr, forwardPass, List.foldr_append]
  rfl

/-- With `k` rotors still to pass before the reflector, the stages up to it are the forward pass of those. -/
theorem runStages_forward {s : State} (ready : s.mode = .ready) {k : Nat} (inRange : k ≤ s.n) (l : Nat) (x : Sym) :
    runStages s.n (List.range' (s.n - k) (k + l)) x s =
      runStages s.n (List.range' s.n l) (forwardPass (s.rotors.take k) x) s := by
  induction k generalizing x with
  | zero => simp
  | succ k ih =>
    have hr : s.rotors[k]? = some s.rotors[k] := List.getElem?_eq_getElem inRange
    have number : s.n - 1 - (s.n - (k + 1)) = k := by omega
    have stage : exec (stageInstr s.n (s.n - (k + 1)) x) s = .next (s.returns (.sym (Rotor.fwd s.rotors[k] x))) := by
      rw [stageInstr_of_lt (by omega), number, exec_fwd_of_getElem? ready hr]
    have next : s.n - (k + 1) + 1 = s.n - k := by omega
    rw [Nat.add_right_comm k 1 l, List.range'_succ, runStages_cons_of_exec stage, next, ih (by omega),
      forwardPass_take_succ hr]

/-- From rotor `k` on, the stages after the reflector are the backward pass of the rotors that are left. -/
theorem runStages_backward {s : State} (ready : s.mode = .ready) {rs : List Rotor} {k : Nat}
    (left : s.rotors.drop k = rs) {x y : Sym} (h : backwardPass rs x = some y) :
    runStages s.n (List.range' (s.n + 1 + k) rs.length) x s = some y := by
  induction rs generalizing k x with
  | nil => exact h
  | cons r rs ih =>
    obtain ⟨z, head, tail⟩ := (backwardPass_cons_eq_some_iff ..).1 h
    have hr : s.rotors[k]? = some r := by rw [← List.head?_drop, left, List.head?_cons]
    have number : s.n + 1 + k - s.n - 1 = k := by omega
    have stage : exec (stageInstr s.n (s.n + 1 + k) x) s = .next (s.returns (.sym z)) := by
      rw [stageInstr_of_gt (by omega), number, exec_bwd_of_getElem? ready hr head]
    have left' : s.rotors.drop (k + 1) = rs := by rw [← List.tail_drop, left, List.tail_cons]
    rw [List.length_cons, List.range'_succ, runStages_cons_of_exec stage]
    exact ih left' tail

/-- The schedule of the stages is the path of a letter. -/
theorem runStages_of_signalPath {s : State} {i y : Sym} (ready : s.mode = .ready)
    (h : signalPath s.rotors s.refl i = some y) :
    runStages s.n (List.range (2 * s.n + 1)) i s = some y := by
  have parts : List.range (2 * s.n + 1) = List.range' (s.n - s.n) (s.n + (s.n + 1)) := by
    rw [List.range_eq_range', Nat.sub_self, Nat.two_mul, Nat.add_assoc]
  have stage (x : Sym) : exec (stageInstr s.n s.n x) s = .next (s.returns (.sym (tabRead s.refl x))) := by
    rw [stageInstr_self, exec_refl ready]
  have whole : s.rotors.take s.n = s.rotors := List.take_length
  rw [parts, runStages_forward ready s.n.le_refl, whole, List.range'_succ, runStages_cons_of_exec (stage _)]
  exact runStages_backward ready (List.drop_zero (l := s.rotors)) h

/-- Settles O31: at the stepped positions the stages are the path that ENC and ENC.L traverse. -/
theorem encStepsThenFollowsTheStages : Obligations.EncStepsThenFollowsTheStages := by
  intro s i ready inv
  obtain ⟨y, path, -⟩ := inv.exists_signalPath ready i
  have stages := runStages_of_signalPath (s := s.stepAll) ready path
  rw [State.stepAll_n] at stages
  exact ⟨s.stepAll, y, exec_stepAll ready, stages, exec_enc_of_signalPath ready path,
    exec_encL_of_signalPath ready path⟩

end Sys2Proof.Machine
end

section
/-! The transform of a message (42_signal_path.md section 4): what is emitted is a function of the tables, the positions
and the message, said once as a relation, from which the laws of whole messages follow by induction. -/
namespace Sys2Proof.Machine

/-- With reflector `U` and rotors `rs`, the message becomes the given output: a letter steps the stack and becomes the
capital of its substitution, any other character stays (42_signal_path.md R88, R89). -/
inductive Transforms (U : Table) : List Rotor → List CharW → List CharW → Prop where
  | nil (rs : List Rotor) : Transforms U rs [] []
  | other {rs : List Rotor} {m out : List CharW} {c : CharW} (notLetter : symOfChar c = none)
      (rest : Transforms U rs m out) : Transforms U rs (c :: m) (c :: out)
  | letter {rs : List Rotor} {m out : List CharW} {c : CharW} {i y : Sym} (letter : symOfChar c = some i)
      (path : signalPath (rs.map Rotor.step) U i = some y) (rest : Transforms U (rs.map Rotor.step) m out) :
      Transforms U rs (c :: m) (charOfSym y :: out)

/-! ## The transform is what PROCESS emits -/

theorem transforms_of_process {s t : State} {m : List CharW} (h : process m s = .next t) :
    ∃ out, Transforms s.refl s.rotors m out ∧ t.outbox = s.outbox ++ out := by
  induction m generalizing s with
  | nil =>
    obtain rfl : s = t := Host.Outcome.next.inj h
    exact ⟨[], .nil _, (List.append_nil _).symm⟩
  | cons c m ih =>
    obtain ⟨u, head, tail⟩ := process_cons_eq_next.1 h
    obtain ⟨out, rest, emitted⟩ := ih tail
    obtain ⟨-, ⟨notLetter, rfl⟩ | ⟨i, y, letter, path, rfl⟩⟩ := execChar_eq_next.1 head
    · exact ⟨c :: out, .other notLetter rest, by simp [emitted]⟩
    · exact ⟨charOfSym y :: out, .letter letter path rest, by simp [emitted]⟩

theorem Transforms.process {U : Table} {rs : List Rotor} {m out : List CharW} (h : Transforms U rs m out) {s : State}
    (ready : s.mode = .ready) (rotors : s.rotors = rs) (table : s.refl = U) :
    ∃ t, process m s = .next t ∧ t.outbox = s.outbox ++ out := by
  induction h generalizing s with
  | nil => exact ⟨s, rfl, (List.append_nil _).symm⟩
  | @other _ _ _ c notLetter _ ih =>
    obtain ⟨t, tail, emitted⟩ := ih (s := s.emit c) ready rotors table
    exact ⟨t, process_cons_eq_next.2 ⟨_, execChar_eq_next.2 ⟨ready, .inl ⟨notLetter, rfl⟩⟩, tail⟩, by simp [emitted]⟩
  | @letter _ _ _ c i y letter path _ ih =>
    subst rotors table
    obtain ⟨t, tail, emitted⟩ := ih (s := s.stepAll.emit (charOfSym y)) ready rfl rfl
    have head := execChar_eq_next.2 ⟨ready, .inr ⟨i, y, letter, path, rfl⟩⟩
    exact ⟨t, process_cons_eq_next.2 ⟨_, head, tail⟩, by simp [emitted]⟩

/-- Two machines in matched state stay matched by messages of equally many letters. -/
theorem matched_of_process {s u t v : State} {m m' : List CharW} (matched : Matched s u)
    (letters : letterCount m' = letterCount m) (hs : process m s = .next t) (hu : process m' u = .next v) :
    Matched t v := by
  obtain ⟨rotors, table⟩ := matched
  obtain ⟨movedT, keptT⟩ := process_rotors_refl hs
  obtain ⟨movedV, keptV⟩ := process_rotors_refl hu
  exact ⟨by rw [movedT, movedV, rotors, letters], by rw [keptT, keptV, table]⟩

/-! ## Totality and determinism -/

/-- Settles O38: a message completes character by character, each CHAR keeping READY and INV. -/
theorem transformIsTotal : Obligations.TransformIsTotal := by
  intro s m ready inv
  obtain ⟨t, -, h, readyT, invT, -⟩ := process_completes ready inv m
  exact ⟨t, h, readyT, invT⟩

/-- Settles O39: the transform names no field but the tables and the positions. -/
theorem outputDependsOnTablesAndPositions : Obligations.OutputDependsOnTablesAndPositions := by
  intro s u m ready readyU inv _ matched
  obtain ⟨rotors, table⟩ := matched
  obtain ⟨t, hs, -⟩ := transformIsTotal s m ready inv
  obtain ⟨out, transforms, emitted⟩ := transforms_of_process hs
  obtain ⟨v, hu, emittedV⟩ := transforms.process readyU rotors.symm table.symm
  exact ⟨t, v, out, hs, hu, emitted, emittedV, matched_of_process ⟨rotors, table⟩ rfl hs hu⟩

/-! ## Concatenation and deletion -/

/-- Settles O46, by induction on the first message. -/
theorem messagesConcatenate : Obligations.MessagesConcatenate := by
  intro s t m₁ m₂ h
  induction m₁ generalizing s with
  | nil => rw [List.nil_append, Host.Outcome.next.inj h]
  | cons c m₁ ih =>
    obtain ⟨u, head, tail⟩ := process_cons_eq_next.1 h
    rw [List.cons_append, process, head]
    exact ih u tail

theorem Transforms.filter_letters {U : Table} {rs : List Rotor} {m out : List CharW} (h : Transforms U rs m out) :
    Transforms U rs (m.filter fun c => (symOfChar c).isSome) (out.filter fun c => (symOfChar c).isSome) := by
  induction h with
  | nil => exact .nil _
  | other notLetter _ ih => simpa [notLetter] using ih
  | letter letter path _ ih => simpa [letter] using Transforms.letter letter path ih

theorem letterCount_filter_letters (m : List CharW) :
    letterCount (m.filter fun c => (symOfChar c).isSome) = letterCount m := by
  simp [letterCount, List.countP_filter]

/-- Settles O41: a non-letter is emitted at its place and steps nothing. -/
theorem nonLettersDoNotDisturb : Obligations.NonLettersDoNotDisturb := by
  intro s m ready inv
  obtain ⟨t, h, -⟩ := transformIsTotal s m ready inv
  obtain ⟨out, transforms, emitted⟩ := transforms_of_process h
  obtain ⟨u, hu, emittedU⟩ := transforms.filter_letters.process ready rfl rfl
  have matched : Matched t u := matched_of_process ⟨rfl, rfl⟩ (letterCount_filter_letters m) h hu
  exact ⟨t, out, u, h, emitted, hu, emittedU, matched.1.symm⟩

/-! ## Positions -/

/-- A letter is substituted at the positions advanced by the letters up to and including it. -/
theorem Transforms.getElem?_letter {U : Table} {rs : List Rotor} {m out : List CharW} (h : Transforms U rs m out)
    {j : Nat} {c : CharW} {i : Sym} (hc : m[j]? = some c) (letter : symOfChar c = some i) :
    ∃ y, out[j]? = some (charOfSym y) ∧
      signalPath (rs.map Rotor.step^[letterCount (m.take (j + 1))]) U i = some y := by
  induction h generalizing j with
  | nil => simp at hc
  | other notLetter _ ih =>
    cases j with
    | zero =>
      obtain rfl : _ = c := Option.some.inj hc
      simp [notLetter] at letter
    | succ j =>
      rw [List.take_succ_cons, letterCount_cons_of_not_letter notLetter]
      exact ih hc
  | @letter _ _ _ _ i' y letter' path _ ih =>
    rw [List.take_succ_cons, letterCount_cons_of_letter letter', Function.iterate_succ, ← List.map_map]
    cases j with
    | zero =>
      obtain rfl : _ = c := Option.some.inj hc
      obtain rfl : i' = i := Option.some.inj (letter'.symm.trans letter)
      exact ⟨y, rfl, by simpa [letterCount] using path⟩
    | succ j => exact ih hc

/-- Settles O44: a rotor stepped once for each letter is advanced by their number. -/
theorem outputIsSubstitutionAtTheLetterCount : Obligations.OutputIsSubstitutionAtTheLetterCount := by
  intro s m ready inv
  obtain ⟨t, h, -⟩ := transformIsTotal s m ready inv
  obtain ⟨out, transforms, emitted⟩ := transforms_of_process h
  refine ⟨t, out, h, emitted, fun j c i hc letter => ?_⟩
  simp only [← Rotor.step_iterate]
  exact transforms.getElem?_letter hc letter

/-- Settles O45: the letters step each rotor a number of full periods, so the second ENC traverses the same path. -/
theorem substitutionRepeatsAfter26Letters : Obligations.SubstitutionRepeatsAfter26Letters := by
  intro s m q i ready inv letters
  obtain ⟨t, h, readyT, -⟩ := transformIsTotal s m ready inv
  obtain ⟨moved, kept⟩ := process_rotors_refl h
  have returned : t.rotors = s.rotors := by
    rw [moved, letters, Function.iterate_mul, Rotor.step_iterate_26, Function.iterate_id, List.map_id]
  obtain ⟨y, path, -⟩ := inv.exists_signalPath ready i
  have pathT : signalPath (t.rotors.map Rotor.step) t.refl i = some y := by rw [returned, kept, path]
  exact ⟨t, _, _, y, h, exec_enc_of_signalPath ready path, exec_enc_of_signalPath readyT pathT, rfl, rfl⟩

/-! ## Reciprocity -/

theorem Transforms.letterCount_eq {U : Table} {rs : List Rotor} {m out : List CharW} (h : Transforms U rs m out) :
    letterCount out = letterCount m := by
  induction h with
  | nil => rfl
  | other notLetter _ ih => rw [letterCount_cons_of_not_letter notLetter, letterCount_cons_of_not_letter notLetter, ih]
  | letter letter _ _ ih =>
    rw [letterCount_cons_of_letter (symOfChar_charOfSym _), letterCount_cons_of_letter letter, ih]

/-- The transform is undone by itself from the same positions, up to the capital form of the letters. -/
theorem Transforms.reciprocal {U : Table} {rs : List Rotor} {m out : List CharW} (h : Transforms U rs m out)
    (perms : ∀ r ∈ rs, TableIsPerm r.wiring) (reflector : TableIsReflector U) :
    Transforms U rs out (m.map capitalForm) := by
  induction h with
  | nil => exact .nil _
  | @other _ _ _ c notLetter _ ih =>
    have same : capitalForm c = c := by simp only [capitalForm, notLetter]
    rw [List.map_cons, same]
    exact .other notLetter (ih perms)
  | @letter _ _ _ c i y letter path _ ih =>
    have capital : capitalForm c = charOfSym i := by simp only [capitalForm, letter]
    have stepped : ∀ r ∈ List.map Rotor.step _, TableIsPerm r.wiring := List.forall_mem_map.2 perms
    rw [List.map_cons, capital]
    exact .letter (symOfChar_charOfSym y) (signalPath_symm stepped reflector path) (ih stepped)

/-- Settles O47: the matched machine starts at the same positions and steps for the same places, so it undoes each
substitution at the positions it was made. -/
theorem messageSelfReciprocity : Obligations.MessageSelfReciprocity := by
  intro x y m ready readyY inv _ matched
  obtain ⟨rotors, table⟩ := matched
  obtain ⟨-, perms, -, reflector, -⟩ := inv ready
  obtain ⟨x', hx, -⟩ := transformIsTotal x m ready inv
  obtain ⟨m', transforms, emitted⟩ := transforms_of_process hx
  obtain ⟨y', hy, restored⟩ := (transforms.reciprocal perms reflector).process readyY rotors.symm table.symm
  exact ⟨x', y', m', hx, emitted, hy, restored, matched_of_process ⟨rotors, table⟩ transforms.letterCount_eq hx hy⟩

end Sys2Proof.Machine
end

section
/-! The checks of CONFIG against the rules' own words (43_construction.md R105 to R109): what the record's strings and
positions say decides what each check answers, and the checks in their order decide the outcome. -/
namespace Sys2Proof.Machine

theorem permTable_eq_none_iff (w : WiringString) : permTable w = none ↔ ¬ ValidWiring w := by
  rw [← permTable_isSome_iff, Option.not_isSome_iff_eq_none]

/-- A string that passes R106 spells its table: the character at each index is the letter of the entry there. -/
theorem bind_symOfChar_of_permTable {w : WiringString} {T : Table} (h : permTable w = some T) (a : Sym) :
    (w[a.val]?).bind symOfChar = some (tabRead T a) := by
  obtain ⟨letters, -⟩ := (permTable_eq_some_iff w T).1 h
  have entry : (w[a.val]?).map symOfChar = some (some (tabRead T a)) := by
    rw [← List.getElem?_map, letters, List.getElem?_map, tabRead_eq_getElem, List.getElem?_eq_getElem, Option.map_some]
  obtain ⟨c, hc, letter⟩ := Option.map_eq_some_iff.1 entry
  rw [hc, Option.bind_some, letter]

/-- Check 2 fails of a table exactly where the string fails R107. -/
theorem reflFails_iff {w : WiringString} {U : Table} (h : permTable w = some U) (a : Sym) :
    reflFails U a = true ↔ ReflectorFailsAt w a := by
  simp [reflFails, ReflectorFailsAt, bind_symOfChar_of_permTable h]

/-! ## Check 1 -/

theorem checkWirings_of_valid {rs : List RotorCfg} (valid : ∀ r ∈ rs, ValidWiring r.wiring) (k : Nat) :
    ∃ Ts, checkWirings k rs = .ok Ts ∧ rs.map (fun r => permTable r.wiring) = Ts.map some := by
  obtain passed | ⟨j, r, -, hr, bad, -⟩ := checkWirings_cases k rs
  · exact passed
  · exact absurd (valid r (List.mem_of_getElem? hr)) ((permTable_eq_none_iff _).1 bad)

theorem checkWirings_of_first_invalid {rs : List RotorCfg} {j : Nat} {r : RotorCfg} (hr : rs[j]? = some r)
    (bad : ¬ ValidWiring r.wiring) (before : ∀ i < j, ∀ q, rs[i]? = some q → ValidWiring q.wiring) (k : Nat) :
    checkWirings k rs = .error (.invalidWiring (.rotor (k + j))) := by
  obtain ⟨Ts, -, tables⟩ | ⟨i, q, failed, hq, bad', before'⟩ := checkWirings_cases k rs
  · have wired : permTable r.wiring ∈ Ts.map some := tables ▸ List.mem_map_of_mem (List.mem_of_getElem? hr)
    obtain ⟨T, -, hT⟩ := List.mem_map.1 wired
    exact absurd ((permTable_isSome_iff _).1 (by rw [← hT]; rfl)) bad
  · rw [permTable_eq_none_iff] at bad'
    simp only [permTable_isSome_iff] at before'
    obtain rfl : i = j :=
      le_antisymm (not_lt.1 fun lt => bad (before' j lt r hr)) (not_lt.1 fun lt => bad' (before i lt q hq))
    exact failed

/-! ## Check 2 -/

theorem checkReflector_of_valid {w : WiringString} {U : Table} (h : permTable w = some U) (valid : ValidReflector w) :
    checkReflector U = .ok () := by
  obtain ⟨passed, -⟩ | ⟨a, -, fails, -⟩ := checkReflector_cases U
  · exact passed
  · exact absurd ((reflFails_iff h a).1 fails) (valid a)

theorem checkReflector_of_first_failing {w : WiringString} {U : Table} (h : permTable w = some U) {a : Sym}
    (fails : ReflectorFailsAt w a) (before : ∀ b < a, ¬ ReflectorFailsAt w b) :
    checkReflector U = .error (.invalidReflector a) := by
  simp only [← reflFails_iff h] at fails before
  obtain ⟨-, reflector⟩ | ⟨b, failed, fails', before'⟩ := checkReflector_cases U
  · simp [reflFails, reflector a] at fails
  · obtain rfl : b = a :=
      le_antisymm (not_lt.1 fun lt => by simp [before' a lt] at fails) (not_lt.1 fun lt => before b lt fails')
    exact failed

/-! ## Check 3 -/

theorem checkPositions_of_valid {rs : List RotorCfg} (valid : ∀ r ∈ rs, ValidPosition r.pos) (k : Nat) :
    ∃ ps, checkPositions k rs = .ok ps ∧ rs.map RotorCfg.pos = ps.map (fun p : Sym => (p.val : Int)) := by
  obtain passed | ⟨j, r, -, hr, bad, -⟩ := checkPositions_cases k rs
  · exact passed
  · exact absurd (valid r (List.mem_of_getElem? hr)) bad

theorem checkPositions_of_first_invalid {rs : List RotorCfg} {j : Nat} {r : RotorCfg} (hr : rs[j]? = some r)
    (bad : ¬ ValidPosition r.pos) (before : ∀ i < j, ∀ q, rs[i]? = some q → ValidPosition q.pos) (k : Nat) :
    checkPositions k rs = .error (.invalidPosition (k + j)) := by
  obtain ⟨ps, -, positions⟩ | ⟨i, q, failed, hq, bad', before'⟩ := checkPositions_cases k rs
  · have placed : r.pos ∈ ps.map (fun p : Sym => (p.val : Int)) :=
      positions ▸ List.mem_map_of_mem (List.mem_of_getElem? hr)
    obtain ⟨p, -, hp⟩ := List.mem_map.1 placed
    exact absurd (by omega) bad
  · obtain rfl : i = j :=
      le_antisymm (not_lt.1 fun lt => bad (before' j lt r hr)) (not_lt.1 fun lt => bad' (before i lt q hq))
    exact failed

/-! ## The checks in their order -/

section
variable {rec : Record}

theorem judge_of_valid (valid : Record.Valid rec) :
    ∃ Ts U ps, judge rec = .ok (List.zipWith Rotor.mk Ts ps, U) ∧
      rec.rotors.map (fun r => permTable r.wiring) = Ts.map some ∧ permTable rec.refl = some U ∧
      rec.rotors.map RotorCfg.pos = ps.map (fun p : Sym => (p.val : Int)) := by
  obtain ⟨⟨wirings, string⟩, reflector, positions⟩ := valid
  obtain ⟨Ts, check1, hT⟩ := checkWirings_of_valid wirings 0
  obtain ⟨U, hU⟩ := Option.isSome_iff_exists.1 ((permTable_isSome_iff _).2 string)
  have check2 := checkReflector_of_valid hU reflector
  obtain ⟨ps, check3, hp⟩ := checkPositions_of_valid positions 0
  exact ⟨Ts, U, ps, by simp only [judge, check1, checkReflString, hU, check2, check3], hT, hU, hp⟩

theorem judge_of_first_invalid_rotor_string {k : Nat} {r : RotorCfg} (hr : rec.rotors[k]? = some r)
    (bad : ¬ ValidWiring r.wiring) (before : ∀ j < k, ∀ q, rec.rotors[j]? = some q → ValidWiring q.wiring) :
    judge rec = .error (.invalidWiring (.rotor k)) := by
  have check1 := checkWirings_of_first_invalid hr bad before 0
  rw [Nat.zero_add] at check1
  simp only [judge, check1]

theorem judge_of_invalid_reflector_string (wirings : ∀ r ∈ rec.rotors, ValidWiring r.wiring)
    (bad : ¬ ValidWiring rec.refl) : judge rec = .error (.invalidWiring .reflector) := by
  obtain ⟨Ts, check1, -⟩ := checkWirings_of_valid wirings 0
  simp only [judge, check1, checkReflString, (permTable_eq_none_iff _).2 bad]

theorem judge_of_first_failing_index {a : Sym} (valid : Record.WiringsValid rec) (fails : ReflectorFailsAt rec.refl a)
    (before : ∀ b < a, ¬ ReflectorFailsAt rec.refl b) : judge rec = .error (.invalidReflector a) := by
  obtain ⟨wirings, string⟩ := valid
  obtain ⟨Ts, check1, -⟩ := checkWirings_of_valid wirings 0
  obtain ⟨U, hU⟩ := Option.isSome_iff_exists.1 ((permTable_isSome_iff _).2 string)
  simp only [judge, check1, checkReflString, hU, checkReflector_of_first_failing hU fails before]

theorem judge_of_first_invalid_position {k : Nat} {r : RotorCfg} (valid : Record.WiringsValid rec)
    (reflector : ValidReflector rec.refl) (hr : rec.rotors[k]? = some r) (bad : ¬ ValidPosition r.pos)
    (before : ∀ j < k, ∀ q, rec.rotors[j]? = some q → ValidPosition q.pos) :
    judge rec = .error (.invalidPosition k) := by
  obtain ⟨wirings, string⟩ := valid
  obtain ⟨Ts, check1, -⟩ := checkWirings_of_valid wirings 0
  obtain ⟨U, hU⟩ := Option.isSome_iff_exists.1 ((permTable_isSome_iff _).2 string)
  have check3 := checkPositions_of_first_invalid hr bad before 0
  rw [Nat.zero_add] at check3
  simp only [judge, check1, checkReflString, hU, checkReflector_of_valid hU reflector, check3]

end

end Sys2Proof.Machine
end

section
/-! Construction (43_construction.md): CONFIG commits what the checks assemble or raises the error they report, whatever
the state before, so the same record brings the same machine back. -/
namespace Sys2Proof.Machine

theorem exec_config_of_judge_ok {s : State} {rec : Record} {rs : List Rotor} {U : Table}
    (room : s.hasRoomFor rec.rotors.length = true) (h : judge rec = .ok (rs, U)) :
    exec (.config rec) s = .next (s.commit rs U) :=
  execConfig_eq_next.2 ⟨room, .inl ⟨rs, U, h, rfl⟩⟩

theorem exec_config_of_judge_error {s : State} {rec : Record} {e : ConfigError}
    (room : s.hasRoomFor rec.rotors.length = true) (h : judge rec = .error e) :
    exec (.config rec) s = .next (s.raise e) :=
  execConfig_eq_next.2 ⟨room, .inr ⟨e, h, rfl⟩⟩

/-- Settles O55: the capacity is asked for before the record is judged. -/
theorem tooLongRecordRefused : Obligations.TooLongRecordRefused := by
  intro s rec m capacity long
  have noRoom : ¬ s.hasRoomFor rec.rotors.length = true := fun room =>
    absurd ((State.hasRoomFor_iff s _).1 room m capacity) (by omega)
  exact if_neg noRoom

/-- Settles O54: the checks read the record alone, and what they answer is committed or raised as it is. -/
theorem configReadsTheRecordAlone : Obligations.ConfigReadsTheRecordAlone := by
  intro s u rec roomS roomU
  cases h : judge rec with
  | ok machine =>
    exact ⟨_, _, .success, exec_config_of_judge_ok roomS h, exec_config_of_judge_ok roomU h, rfl, rfl, rfl, rfl,
      fun _ => ⟨rfl, rfl⟩⟩
  | error e =>
    exact ⟨_, _, .failed e, exec_config_of_judge_error roomS h, exec_config_of_judge_error roomU h, rfl, rfl, rfl, rfl,
      fun ready => by simp at ready⟩

/-! ## The report -/

theorem reports_of_judge_error {s t : State} {rec : Record} {e : ConfigError} (h : exec (.config rec) s = .next t)
    (failed : judge rec = .error e) : t.reports = s.reports ++ [.failed e] := by
  obtain ⟨room, -⟩ := execConfig_eq_next.1 h
  obtain rfl : s.raise e = t := Host.Outcome.next.inj ((exec_config_of_judge_error room failed).symm.trans h)
  exact State.raise_reports s e

/-- Settles O52: CONFIG reports the error of the first check that fails, and each check names the first place where it
fails. -/
theorem reportedErrorFollowsThePriority : Obligations.ReportedErrorFollowsThePriority := by
  intro s rec room
  obtain ⟨t, -, -, h, -⟩ := configReadsTheRecordAlone s s rec room room
  refine ⟨t, h, fun k r hr bad before => ?_, fun wirings bad => ?_, fun a valid fails before => ?_,
    fun k r valid reflector hr bad before => ?_⟩ <;> apply reports_of_judge_error h
  · exact judge_of_first_invalid_rotor_string hr bad before
  · exact judge_of_invalid_reflector_string wirings bad
  · exact judge_of_first_failing_index valid fails before
  · exact judge_of_first_invalid_position valid reflector hr bad before

/-! ## The commit -/

/-- The tables and the positions of a record, paired in order: rotor `k` is that of element `k`. -/
theorem getElem?_zipWith_rotor {cfgs : List RotorCfg} {Ts : List Table} {ps : List Sym} {k : Nat} {r : RotorCfg}
    (tables : cfgs.map (fun r => permTable r.wiring) = Ts.map some)
    (positions : cfgs.map RotorCfg.pos = ps.map (fun p : Sym => (p.val : Int))) (hr : cfgs[k]? = some r) :
    ∃ q, (List.zipWith Rotor.mk Ts ps)[k]? = some q ∧ permTable r.wiring = some q.wiring ∧
      (q.pos.val : Int) = r.pos := by
  have table := congrArg (·[k]?) tables
  have position := congrArg (·[k]?) positions
  simp only [List.getElem?_map, hr, Option.map_some] at table position
  obtain ⟨T, hT, wired⟩ := Option.map_eq_some_iff.1 table.symm
  obtain ⟨p, hp, placed⟩ := Option.map_eq_some_iff.1 position.symm
  exact ⟨⟨T, p⟩, by rw [List.getElem?_zipWith, hT, hp], wired.symm, placed⟩

theorem symOfChar_of_permTable {w : WiringString} {T : Table} (h : permTable w = some T) {a : Sym} {c : CharW}
    (hc : w[a.val]? = some c) : symOfChar c = some (tabRead T a) := by
  rw [← bind_symOfChar_of_permTable h a, hc, Option.bind_some]

/-- Settles O48: the checks pass, each table is the one its string spells and each position the record's, and what
CONFIG commits satisfies INV. -/
theorem configCommits : Obligations.ConfigCommits := by
  intro s rec room valid
  obtain ⟨Ts, U, ps, judged, tables, table, positions⟩ := judge_of_valid valid
  obtain ⟨count, -⟩ := judge_eq_ok judged
  have h := exec_config_of_judge_ok room judged
  refine ⟨_, h, rfl, count, fun k r hr => ?_, fun a c => symOfChar_of_permTable table, configEstablishesInv s _ rec h⟩
  obtain ⟨q, hq, wired, placed⟩ := getElem?_zipWith_rotor tables positions hr
  exact ⟨q, hq, placed, fun a c => symOfChar_of_permTable wired⟩

/-- Settles O56: the message keeps the number of rotors, so there is room for the record again; the machine it brings
back is in matched state with the one that enciphered the message. -/
theorem sameRecordDeciphers : Obligations.SameRecordDeciphers := by
  intro s rec m room valid
  obtain ⟨a, ha, frame, count, -, -, invA⟩ := configCommits s rec room valid
  have readyA : a.mode = .ready := by rw [frame]
  obtain ⟨x, hx, readyX, invX⟩ := transformIsTotal a m readyA invA
  obtain ⟨roomX, -⟩ := invX readyX
  rw [State.n, (process_rotors_refl hx).1, List.length_map, ← State.n, count] at roomX
  obtain ⟨_, b, -, ha', hb, sameMode, -, -, -, matched⟩ := configReadsTheRecordAlone s x rec room roomX
  obtain rfl : a = _ := Host.Outcome.next.inj (ha.symm.trans ha')
  obtain ⟨x', y, m', hx', emitted, hy, restored, -⟩ := messageSelfReciprocity a b m readyA (sameMode ▸ readyA) invA
    (configEstablishesInv x b rec hb) (matched readyA)
  obtain rfl : x = x' := Host.Outcome.next.inj (hx.symm.trans hx')
  exact ⟨a, x, b, y, m', ha, hx, emitted, hb, matched readyA, hy, restored⟩

end Sys2Proof.Machine
end

section
/-! The exceptional conditions (60_exceptions.md): each value of ERR has its condition on the record, in the words of
R106 to R108; the conditions exclude each other, and CONFIG leaves the ERR whose condition holds. While UNCONFIGURED
nothing but CONFIG has meaning (R129). -/
namespace Sys2Proof.Machine

/-! ## What passing a check says of the record -/

theorem wiringsValid_of_permTable {rec : Record} {Ts : List Table} {U : Table}
    (tables : rec.rotors.map (fun r => permTable r.wiring) = Ts.map some) (table : permTable rec.refl = some U) :
    Record.WiringsValid rec := by
  refine ⟨fun r hr => ?_, (permTable_isSome_iff _).1 (table ▸ rfl)⟩
  have wired : permTable r.wiring ∈ Ts.map some := tables ▸ List.mem_map_of_mem hr
  obtain ⟨T, -, hT⟩ := List.mem_map.1 wired
  exact (permTable_isSome_iff _).1 (hT ▸ rfl)

theorem validPosition_of_map_val {rs : List RotorCfg} {ps : List Sym}
    (positions : rs.map RotorCfg.pos = ps.map (fun p : Sym => (p.val : Int))) : ∀ r ∈ rs, ValidPosition r.pos := by
  intro r hr
  have placed : r.pos ∈ ps.map (fun p : Sym => (p.val : Int)) := positions ▸ List.mem_map_of_mem hr
  obtain ⟨p, -, hp⟩ := List.mem_map.1 placed
  omega

theorem validReflector_of_tableIsReflector {w : WiringString} {U : Table} (h : permTable w = some U)
    (reflector : TableIsReflector U) : ValidReflector w := by
  intro a fails
  simpa [reflFails, reflector a] using (reflFails_iff h a).2 fails

/-! ## The error a record calls for -/

@[simp] theorem ConfigError.err_ne_none (e : ConfigError) : e.err ≠ .none := by
  cases e <;> simp [ConfigError.err]

/-- When CONFIG of a record is to leave each value of ERR (60_exceptions.md R121 to R123; 0 when no check fails). -/
def Record.CallsFor (rec : Record) : Err → Prop
  | .none => Record.Valid rec
  | .invalidWiring => ¬ Record.WiringsValid rec
  | .invalidReflector => Record.WiringsValid rec ∧ ¬ ValidReflector rec.refl
  | .invalidPosition =>
    Record.WiringsValid rec ∧ ValidReflector rec.refl ∧ ¬ ∀ r ∈ rec.rotors, ValidPosition r.pos

/-- What a record calls for is settled by the first condition that fails, in the order of the checks. -/
theorem Record.CallsFor.eq_first_failing {rec : Record} {e : Err} (h : Record.CallsFor rec e) :
    e = if Record.WiringsValid rec then
          if ValidReflector rec.refl then
            if ∀ r ∈ rec.rotors, ValidPosition r.pos then .none else .invalidPosition
          else .invalidReflector
        else .invalidWiring := by
  cases e with
  | none => obtain ⟨wirings, reflector, positions⟩ := h; rw [if_pos wirings, if_pos reflector, if_pos positions]
  | invalidWiring => exact (if_neg h).symm
  | invalidReflector => obtain ⟨wirings, bad⟩ := h; rw [if_pos wirings, if_neg bad]
  | invalidPosition => obtain ⟨wirings, reflector, bad⟩ := h; rw [if_pos wirings, if_pos reflector, if_neg bad]

theorem Record.CallsFor.unique {rec : Record} {e f : Err} (he : Record.CallsFor rec e) (hf : Record.CallsFor rec f) :
    e = f :=
  he.eq_first_failing.trans hf.eq_first_failing.symm

/-- The checks in their order answer the machine when the record passes them, and the error it calls for otherwise. -/
theorem judge_callsFor (rec : Record) :
    (∃ rs U, judge rec = .ok (rs, U) ∧ Record.CallsFor rec .none) ∨
      ∃ e, judge rec = .error e ∧ Record.CallsFor rec e.err := by
  obtain ⟨Ts, U, ps, judged, tables, table, reflector, positions⟩ | ⟨j, r, judged, hr, bad, -⟩ |
    ⟨-, judged, bad⟩ | ⟨⟨Ts, tables⟩, U, a, table, judged, fails, -⟩ |
    ⟨⟨Ts, tables⟩, U, j, r, table, reflector, judged, hr, bad, -⟩ := judge_cases rec
  · exact .inl ⟨_, U, judged, wiringsValid_of_permTable tables table,
      validReflector_of_tableIsReflector table reflector, validPosition_of_map_val positions⟩
  · exact .inr ⟨_, judged, fun ⟨wirings, _⟩ =>
      (permTable_eq_none_iff _).1 bad (wirings r (List.mem_of_getElem? hr))⟩
  · exact .inr ⟨_, judged, fun ⟨_, string⟩ => (permTable_eq_none_iff _).1 bad string⟩
  · exact .inr ⟨_, judged, wiringsValid_of_permTable tables table,
      fun valid => valid a ((reflFails_iff table a).1 fails)⟩
  · exact .inr ⟨_, judged, wiringsValid_of_permTable tables table,
      validReflector_of_tableIsReflector table reflector, fun valid => bad (valid r (List.mem_of_getElem? hr))⟩

/-- CONFIG of a record there is room for completes, and ERR is the one value the record calls for. -/
theorem exec_config_err_iff {s : State} {rec : Record} (room : s.hasRoomFor rec.rotors.length = true) (e : Err) :
    ∃ t, exec (.config rec) s = .next t ∧ (t.err = e ↔ Record.CallsFor rec e) := by
  have left : ∃ t, exec (.config rec) s = .next t ∧ Record.CallsFor rec t.err := by
    obtain ⟨rs, U, judged, calls⟩ | ⟨e, judged, calls⟩ := judge_callsFor rec
    · exact ⟨_, exec_config_of_judge_ok room judged, calls⟩
    · exact ⟨_, exec_config_of_judge_error room judged, calls⟩
  obtain ⟨t, h, calls⟩ := left
  exact ⟨t, h, fun same => same ▸ calls, calls.unique⟩

/-- Settles O49: the condition of ERR 1. -/
theorem invalidWiringExactlyWhen : Obligations.InvalidWiringExactlyWhen :=
  fun _ _ room => exec_config_err_iff room .invalidWiring

/-- Settles O50: the condition of ERR 2. -/
theorem invalidReflectorExactlyWhen : Obligations.InvalidReflectorExactlyWhen :=
  fun _ _ room => exec_config_err_iff room .invalidReflector

/-- Settles O51: the condition of ERR 3. -/
theorem invalidPositionExactlyWhen : Obligations.InvalidPositionExactlyWhen :=
  fun _ _ room => exec_config_err_iff room .invalidPosition

/-! ## The mode -/

/-- Settles O37: the meaning of every operation but CONFIG is guarded by the mode. -/
theorem unconfiguredRefusesAllButConfig : Obligations.UnconfiguredRefusesAllButConfig := by
  intro s i unconfigured other
  cases i with
  | config rec => exact absurd rfl (other rec)
  | char | enc | encL | pass | stepAll | step | fwd | refl | bwd | bypass =>
    exact State.whenReady_unconfigured unconfigured _

/-- Settles O53: the checks answer the error the record calls for, which CONFIG raises; the mode it leaves refuses every
CHAR. -/
theorem failedConfigRaises : Obligations.FailedConfigRaises := by
  intro s rec room invalid
  obtain ⟨rs, U, -, valid⟩ | ⟨e, judged, -⟩ := judge_callsFor rec
  · exact absurd valid invalid
  · exact ⟨s.raise e, e, exec_config_of_judge_error room judged, rfl, rfl, e.err_ne_none, rfl, rfl, rfl, rfl, rfl,
      fun c => unconfiguredRefusesAllButConfig _ (.char c) rfl fun _ same => nomatch same⟩

/-- Settles O57: a commit leaves READY and ERR 0, a raise UNCONFIGURED and the code of an error, and every other
operation completes in READY only and leaves the mode. -/
theorem modeTransitions : Obligations.ModeTransitions := by
  intro s t i h
  refine ⟨?_, fun other => ?_⟩
  · rintro ⟨rec, rfl⟩
    obtain ⟨-, ⟨rs, U, -, rfl⟩ | ⟨e, -, rfl⟩⟩ := execConfig_eq_next.1 h <;> simp
  · obtain ⟨ready, rs, out, v, -, rfl⟩ := exec_eq_next_of_ne_config other h
    exact ⟨ready, ready⟩

end Sys2Proof.Machine
end

section
/-! The reset event (70_reset_and_hazards.md R140): presented next, it is taken and completes, whatever the state. -/
namespace Sys2Proof.Machine

theorem step_of_inbox_reset {s : State} {rest : List Event} (h : s.inbox = .reset :: rest) :
    step s = .next (State.resetEvent { s with inbox := rest }) := by
  have taken : s.take = some (.reset, { s with inbox := rest }) := State.take_eq_some_iff.2 ⟨rest, h, rfl⟩
  simp only [step, taken]

/-- Settles O2: the step takes the event and leaves what the reset event leaves, which writes neither the streams, the
reports nor N_MAX. -/
theorem stepTakesResetEvent : Obligations.StepTakesResetEvent :=
  fun _ _ inbox => ⟨_, step_of_inbox_reset inbox, by simp⟩

end Sys2Proof.Machine
end
